-- ==== Sys2Proof/Word.lean ====
section
/-! DEFINITION. Word.lean: the machine's word types (00_scope.md R5, R7, R8). Every quantity is unsigned; bit 0 is the
least significant bit. -/

namespace Sys2Proof

/-- An 8-bit value: a general register, a timer, a byte of memory, the immediate `kk` (R5). -/
abbrev Byte := BitVec 8

/-- A 16-bit value: an instruction word, `I`, `pc`, a stack entry (R5). -/
abbrev Word := BitVec 16

/-- A 4-bit field of an instruction word: a register number `x` or `y`, or the row count `n` (R7, R71). -/
abbrev Nibble := BitVec 4

/-- The 12-bit address literal `nnn` (R71). -/
abbrev Literal := BitVec 12

end Sys2Proof
end

