-- ==== Sys2Proof/Config.lean ====
section
/-! DEFINITION. Config.lean: what is fixed for one machine (00_scope.md R5, R6) and the free values the spec leaves open
(92_eei_decisions.md, the list of OPEN parameters). An open value is an `opaque` constant with no body: nothing can be
proved of it but what its type says. -/

namespace Sys2Proof

/-- `MEM_SIZE`, 4096 bytes: addresses 0x000 to 0xFFF (R5). -/
abbrev Config.memSize : Nat := 0x1000

/-- `PROGRAM_BASE`, the first program byte and the boot pc (R5). -/
abbrev Config.programBase : Nat := 0x200

/-- `MAX_PROGRAM`, the largest loadable program in bytes (R5). -/
abbrev Config.maxProgram : Nat := 0xE00

/-- `STACK_DEPTH`, the entries of the call stack (R6, D6). -/
abbrev Config.stackDepth : Nat := 16

/-- The columns of the framebuffer (R5). -/
abbrev Config.fbColumns : Nat := 64

/-- The rows of the framebuffer (R5). -/
abbrev Config.fbRows : Nat := 32

/-- The bytes of the font: 16 glyphs of 5 bytes (R5, R31). -/
abbrev Config.fontSize : Nat := 80

/-- `FONT_BASE`, OPEN (R31, D4): any address with `FONT_BASE + 80 <= 0x200`, so 0 to 432. Free value, DESIGN CHOICE, safe, log entry 1. -/
opaque Config.fontBase : Fin 433

/-- `FONT_DATA`, OPEN (R32, D4): any 80 bytes. Free value, DESIGN CHOICE, safe, log entry 2. -/
opaque Config.fontData : Vector Byte Config.fontSize

/-- The free choice behind `KEY_PRIORITY`, OPEN (R6, R172, D12): one key number for each key mask. It is made legal (a
pressed key) where it is used, in `Machine.keyPriority`. Free value, DESIGN CHOICE, unsafe, log entry 3. -/
opaque Config.keyChoice : Vector Bool 16 → Fin 16

/-- `Rand()`, a free byte per draw under no law (R12, D25), applied to the state's draw counter. Free value, DESIGN CHOICE, safe, log entry 4. -/
opaque Config.rand : Nat → Byte

/-- Whether a faulting range instruction has already written the `k`-th location of its range (R59, U5: each in-bounds
location holds its old or its new value), applied to the draw counter and to `k`. Free value, DESIGN CHOICE, safe, log entry 5. -/
opaque Config.partialDone : Nat → Nat → Bool

end Sys2Proof
end

