-- ==== Sys2Proof/Syntax.lean ====
section
/-! DEFINITION. Syntax.lean: one constructor per row of spec/opcode_table.json (30_encoding.md R74), in the table's order.
A word of the UNKNOWN class (R77) is no row and no constructor: the decoder rejects it by name (DEDUCED, safe, log entry 12). -/

namespace Sys2Proof

/-- The 35 operations. `x`, `y` are register numbers, `n` the row count, `kk` the immediate, `nnn` the address literal
(R71, R73). -/
inductive Instr where
  | cls                              -- 00E0, R160
  | ret                              -- 00EE, R100
  | sys (nnn : Literal)              -- 0nnn, R190
  | jp (nnn : Literal)               -- 1nnn, R101
  | call (nnn : Literal)             -- 2nnn, R102
  | seImm (x : Nibble) (kk : Byte)   -- 3xkk, R104
  | sneImm (x : Nibble) (kk : Byte)  -- 4xkk, R105
  | seReg (x y : Nibble)             -- 5xy0, R106
  | ldImm (x : Nibble) (kk : Byte)   -- 6xkk, R120
  | addImm (x : Nibble) (kk : Byte)  -- 7xkk, R121
  | ldReg (x y : Nibble)             -- 8xy0, R122
  | orReg (x y : Nibble)             -- 8xy1, R124
  | andReg (x y : Nibble)            -- 8xy2, R125
  | xorReg (x y : Nibble)            -- 8xy3, R126
  | addReg (x y : Nibble)            -- 8xy4, R127
  | sub (x y : Nibble)               -- 8xy5, R128
  | shr (x y : Nibble)               -- 8xy6, R130; the field y is carried and ignored
  | subn (x y : Nibble)              -- 8xy7, R129
  | shl (x y : Nibble)               -- 8xyE, R131; the field y is carried and ignored
  | sneReg (x y : Nibble)            -- 9xy0, R107
  | ldI (nnn : Literal)              -- Annn, R140
  | jpV0 (nnn : Literal)             -- Bnnn, R103
  | rnd (x : Nibble) (kk : Byte)     -- Cxkk, R132
  | drw (x y n : Nibble)             -- Dxyn, R161
  | skp (x : Nibble)                 -- Ex9E, R170
  | sknp (x : Nibble)                -- ExA1, R171
  | ldVxDT (x : Nibble)              -- Fx07, R173
  | ldVxK (x : Nibble)               -- Fx0A, R172
  | ldDTVx (x : Nibble)              -- Fx15, R174
  | ldSTVx (x : Nibble)              -- Fx18, R175
  | addI (x : Nibble)                -- Fx1E, R141
  | ldF (x : Nibble)                 -- Fx29, R142
  | ldB (x : Nibble)                 -- Fx33, R143
  | ldMemVx (x : Nibble)             -- Fx55, R146
  | ldVxMem (x : Nibble)             -- Fx65, R147
  deriving DecidableEq, Repr

end Sys2Proof
end

