-- ==== Sys2Proof/WellFormed.lean ====
section
/-! DEFINITION. WellFormed.lean: which terms of `Instr` are instructions. The field types already hold every operand to its
width (R71, R73: every value of `x`, `y`, `n`, `kk`, `nnn` is legal); what is left is that `0nnn` stands for SYS only when the
word is neither `00E0` nor `00EE` (R74, R190). -/

namespace Sys2Proof

/-- The literals a SYS word can carry: 4094 of the 4096, `0E0` and `0EE` being CLS and RET (R190). -/
def Literal.sysLegal (nnn : Literal) : Bool :=
  nnn != 0x0E0#12 && nnn != 0x0EE#12

/-- An instruction term that some word encodes. -/
def Instr.wellFormed : Instr → Bool
  | .cls => true
  | .ret => true
  | .sys nnn => nnn.sysLegal
  | .jp _ => true
  | .call _ => true
  | .seImm _ _ => true
  | .sneImm _ _ => true
  | .seReg _ _ => true
  | .ldImm _ _ => true
  | .addImm _ _ => true
  | .ldReg _ _ => true
  | .orReg _ _ => true
  | .andReg _ _ => true
  | .xorReg _ _ => true
  | .addReg _ _ => true
  | .sub _ _ => true
  | .shr _ _ => true
  | .subn _ _ => true
  | .shl _ _ => true
  | .sneReg _ _ => true
  | .ldI _ => true
  | .jpV0 _ => true
  | .rnd _ _ => true
  | .drw _ _ _ => true
  | .skp _ => true
  | .sknp _ => true
  | .ldVxDT _ => true
  | .ldVxK _ => true
  | .ldDTVx _ => true
  | .ldSTVx _ => true
  | .addI _ => true
  | .ldF _ => true
  | .ldB _ => true
  | .ldMemVx _ => true
  | .ldVxMem _ => true

end Sys2Proof
end

