-- ==== Sys2Proof/Decode.lean ====
section
/-! DEFINITION. Decode.lean: the decoder (30_encoding.md R70 to R75), total on words and on bytes, rejecting by name, and
after it the encoder of R72 and R74. -/

namespace Sys2Proof

/-- Why the decoder gives no instruction. `unknownOpcode w`: the word is of the UNKNOWN class (R77); the step then runs
`Machine.execUnknown` (R191), so this is no stop. `truncated`: fewer than two bytes were offered; a fetch always offers two. -/
inductive DecodeReject where
  | unknownOpcode (w : Word)
  | truncated
  deriving DecidableEq, Repr

/-- The high nibble `op[15:12]` (R71). -/
def fieldHi (w : Word) : Nibble := w.extractLsb' 12 4

/-- `x = op[11:8]` (R71). -/
def fieldX (w : Word) : Nibble := w.extractLsb' 8 4

/-- `y = op[7:4]` (R71). -/
def fieldY (w : Word) : Nibble := w.extractLsb' 4 4

/-- `n = op[3:0]` (R71). -/
def fieldN (w : Word) : Nibble := w.extractLsb' 0 4

/-- `kk = op[7:0]` (R71). -/
def fieldKK (w : Word) : Byte := w.extractLsb' 0 8

/-- `nnn = op[11:0]` (R71). -/
def fieldNNN (w : Word) : Literal := w.extractLsb' 0 12

/-- The sub-cases of the high nibble 8, by the low nibble (R75). -/
def decodeAlu (w : Word) : Except DecodeReject Instr :=
  match (fieldN w).toNat with
  | 0x0 => .ok (.ldReg (fieldX w) (fieldY w))
  | 0x1 => .ok (.orReg (fieldX w) (fieldY w))
  | 0x2 => .ok (.andReg (fieldX w) (fieldY w))
  | 0x3 => .ok (.xorReg (fieldX w) (fieldY w))
  | 0x4 => .ok (.addReg (fieldX w) (fieldY w))
  | 0x5 => .ok (.sub (fieldX w) (fieldY w))
  | 0x6 => .ok (.shr (fieldX w) (fieldY w))
  | 0x7 => .ok (.subn (fieldX w) (fieldY w))
  | 0xE => .ok (.shl (fieldX w) (fieldY w))
  | _ => .error (.unknownOpcode w)

/-- The sub-cases of the high nibble F, by the low byte (R75). -/
def decodeMisc (w : Word) : Except DecodeReject Instr :=
  match (fieldKK w).toNat with
  | 0x07 => .ok (.ldVxDT (fieldX w))
  | 0x0A => .ok (.ldVxK (fieldX w))
  | 0x15 => .ok (.ldDTVx (fieldX w))
  | 0x18 => .ok (.ldSTVx (fieldX w))
  | 0x1E => .ok (.addI (fieldX w))
  | 0x29 => .ok (.ldF (fieldX w))
  | 0x33 => .ok (.ldB (fieldX w))
  | 0x55 => .ok (.ldMemVx (fieldX w))
  | 0x65 => .ok (.ldVxMem (fieldX w))
  | _ => .error (.unknownOpcode w)

/-- Decode one word: dispatch on the high nibble first, then by the low nibble or the low byte (R75; the patterns UNVERIFIED, unsafe,
log entry 14). -/
def decodeWord (w : Word) : Except DecodeReject Instr :=
  match (fieldHi w).toNat with
  | 0x0 =>
    if w = 0x00E0#16 then .ok .cls
    else if w = 0x00EE#16 then .ok .ret
    else .ok (.sys (fieldNNN w))
  | 0x1 => .ok (.jp (fieldNNN w))
  | 0x2 => .ok (.call (fieldNNN w))
  | 0x3 => .ok (.seImm (fieldX w) (fieldKK w))
  | 0x4 => .ok (.sneImm (fieldX w) (fieldKK w))
  | 0x5 => if fieldN w = 0#4 then .ok (.seReg (fieldX w) (fieldY w)) else .error (.unknownOpcode w)
  | 0x6 => .ok (.ldImm (fieldX w) (fieldKK w))
  | 0x7 => .ok (.addImm (fieldX w) (fieldKK w))
  | 0x8 => decodeAlu w
  | 0x9 => if fieldN w = 0#4 then .ok (.sneReg (fieldX w) (fieldY w)) else .error (.unknownOpcode w)
  | 0xA => .ok (.ldI (fieldNNN w))
  | 0xB => .ok (.jpV0 (fieldNNN w))
  | 0xC => .ok (.rnd (fieldX w) (fieldKK w))
  | 0xD => .ok (.drw (fieldX w) (fieldY w) (fieldN w))
  | 0xE =>
    if fieldKK w = 0x9E#8 then .ok (.skp (fieldX w))
    else if fieldKK w = 0xA1#8 then .ok (.sknp (fieldX w))
    else .error (.unknownOpcode w)
  | 0xF => decodeMisc w
  | _ => .error (.unknownOpcode w) -- a nibble is below 16: no value is left for this row

/-- Two bytes as one word, the byte at the lower address the high one (20_memory.md R52, R54). -/
def wordOfBytes (hi lo : Byte) : Word := hi ++ lo

/-- The high byte of a word, stored at the lower address (R54). -/
def highByte (w : Word) : Byte := w.extractLsb' 8 8

/-- The low byte of a word, stored at the higher address (R54). -/
def lowByte (w : Word) : Byte := w.extractLsb' 0 8

/-- Decode the front of a byte sequence: the instruction and the bytes after it (R70: two bytes, one length only). -/
def decodeBytes : List Byte → Except DecodeReject (Instr × List Byte)
  | hi :: lo :: rest => (decodeWord (wordOfBytes hi lo)).map (fun i => (i, rest))
  | _ => .error .truncated

/-- Format NNN (R72). -/
def encodeNNN (hi : Nibble) (nnn : Literal) : Word := hi ++ nnn

/-- Formats XKK and XFF (R72). -/
def encodeXKK (hi x : Nibble) (kk : Byte) : Word := hi ++ x ++ kk

/-- Format XYN (R72). -/
def encodeXYN (hi x y n : Nibble) : Word := hi ++ x ++ y ++ n

/-- The word of an instruction (R72, R74). -/
def encode : Instr → Word
  | .cls => 0x00E0#16
  | .ret => 0x00EE#16
  | .sys nnn => encodeNNN 0x0#4 nnn
  | .jp nnn => encodeNNN 0x1#4 nnn
  | .call nnn => encodeNNN 0x2#4 nnn
  | .seImm x kk => encodeXKK 0x3#4 x kk
  | .sneImm x kk => encodeXKK 0x4#4 x kk
  | .seReg x y => encodeXYN 0x5#4 x y 0x0#4
  | .ldImm x kk => encodeXKK 0x6#4 x kk
  | .addImm x kk => encodeXKK 0x7#4 x kk
  | .ldReg x y => encodeXYN 0x8#4 x y 0x0#4
  | .orReg x y => encodeXYN 0x8#4 x y 0x1#4
  | .andReg x y => encodeXYN 0x8#4 x y 0x2#4
  | .xorReg x y => encodeXYN 0x8#4 x y 0x3#4
  | .addReg x y => encodeXYN 0x8#4 x y 0x4#4
  | .sub x y => encodeXYN 0x8#4 x y 0x5#4
  | .shr x y => encodeXYN 0x8#4 x y 0x6#4
  | .subn x y => encodeXYN 0x8#4 x y 0x7#4
  | .shl x y => encodeXYN 0x8#4 x y 0xE#4
  | .sneReg x y => encodeXYN 0x9#4 x y 0x0#4
  | .ldI nnn => encodeNNN 0xA#4 nnn
  | .jpV0 nnn => encodeNNN 0xB#4 nnn
  | .rnd x kk => encodeXKK 0xC#4 x kk
  | .drw x y n => encodeXYN 0xD#4 x y n
  | .skp x => encodeXKK 0xE#4 x 0x9E#8
  | .sknp x => encodeXKK 0xE#4 x 0xA1#8
  | .ldVxDT x => encodeXKK 0xF#4 x 0x07#8
  | .ldVxK x => encodeXKK 0xF#4 x 0x0A#8
  | .ldDTVx x => encodeXKK 0xF#4 x 0x15#8
  | .ldSTVx x => encodeXKK 0xF#4 x 0x18#8
  | .addI x => encodeXKK 0xF#4 x 0x1E#8
  | .ldF x => encodeXKK 0xF#4 x 0x29#8
  | .ldB x => encodeXKK 0xF#4 x 0x33#8
  | .ldMemVx x => encodeXKK 0xF#4 x 0x55#8
  | .ldVxMem x => encodeXKK 0xF#4 x 0x65#8

/-- The two bytes of an instruction as the hardware stores them, the first at the lower address (R54). -/
def encodeBytes (i : Instr) : List Byte := [highByte (encode i), lowByte (encode i)]

/-- The instruction the decoder reads from the word `w` of `nbits` bits, numbered as the opcode table numbers them (one
16-bit word, bit 0 its least significant bit), laid out as two bytes; `none` where it refuses. -/
def decodeTableWord (nbits w : Nat) : Option Instr :=
  match decodeBytes [highByte (BitVec.ofNat 16 (w % 2 ^ nbits)), lowByte (BitVec.ofNat 16 (w % 2 ^ nbits))] with
  | .ok (i, _) => some i
  | .error _ => none

end Sys2Proof
end

