-- ==== Sys2Proof/Machine/State.lean ====
section
/-! DEFINITION. Machine/State.lean: the machine's state as plain data (10_state.md R20 to R38), its value after reset, and
the reasons a step can stop. -/

namespace Sys2Proof.Machine

/-- Memory as a list of (address, byte) cells in one canonical form (`Memory.wf` in Ops.lean): addresses strictly rising,
all below 0x1000, no cell equal to the boot content of its address. An unlisted address reads as its boot content (R30; DEDUCED,
safe, log entry 26). -/
abbrev Memory := List Host.Cell

/-- The 64×32 grid of one-bit pixels, row then column: `fb[y][x]` (R28). -/
abbrev Framebuffer := Vector (Vector Bool 64) 32

/-- The engine's state (R33). `halted` is the spec's own name for the engine after a fatal error (D13). -/
inductive Status where
  | running
  | waitingForKey
  | halted
  deriving DecidableEq, Repr

/-- The fatal errors a step raises (60_exceptions.md R203). -/
inductive ErrorKind where
  | addressingError
  | stackUnderflow
  | stackOverflow
  deriving DecidableEq, Repr

/-- `FatalError{kind, pc, opcode}` (R35, R205): `pc` is the address the faulting instruction was fetched from; `opcode` the
word fetched, absent for a fetch error (DESIGN CHOICE, unsafe, log entry 6). -/
structure FatalError where
  kind : ErrorKind
  pc : Word
  opcode : Option Word
  deriving DecidableEq, Repr

/-- Everything the spec gives the machine (R20 to R36), and one field of the model's own, `draws`. -/
structure State where
  /-- `V[0..15]` (R20); `V[15]` is VF (R21). -/
  V : Vector Byte 16
  /-- The index register (R22). -/
  I : Word
  /-- The program counter: between steps the address of the next instruction (R23). -/
  pc : Word
  /-- The call stack's 16 entries; those in use are `stack[0]` to `stack[sp-1]` (R24, R25). -/
  stack : Vector Word 16
  /-- The entries in use, 0 to 16 (R25). -/
  sp : Fin 17
  /-- The delay timer (R26). -/
  DT : Byte
  /-- The sound timer (R27). -/
  ST : Byte
  /-- The framebuffer (R28). -/
  fb : Framebuffer
  /-- The key flags, true while pressed (R29). -/
  key : Vector Bool 16
  /-- The 4096 bytes of memory (R30). -/
  mem : Memory
  /-- The engine's state (R33). -/
  status : Status
  /-- `wait_reg`, the register a pending key wait will load (R34). -/
  waitReg : Nibble
  /-- The fatal error that halted the engine (R35). -/
  fault : Option FatalError
  /-- The MODEL's own counter, not the spec's: how many times a free value was used (DESIGN CHOICE, safe, log entry 4). -/
  draws : Nat
  deriving DecidableEq, Repr

/-- Why an event stops. No `step` answers a fault: a fatal error of a step is a next state, Halted (R204, DEDUCED, safe, log entry 9). -/
inductive Fault where
  /-- Raised by `Machine.load` only, for a program longer than 0xE00 bytes (R232, R203: an `AddressingError` of the load,
  not of a step). Safe: the document returns no machine in that case. -/
  | programTooLarge
  deriving DecidableEq, Repr

/-- Why an event is given no meaning. No meaning of an instruction answers a refusal. -/
inductive Refusal where
  /-- Raised by an arm of `exec` whose instruction is not modelled yet (none is left). Safe. -/
  | notModelled (mnemonic : String)
  /-- Raised by `Session.event` for a `Load` on a machine that is not freshly reset (R232, D19, U11: refuse). Safe. -/
  | loadNotFresh
  /-- Raised by `Session.event` for a `Step` after a failed `Load` (R242 (d), U11: refuse). Safe. -/
  | stepAfterFailedLoad
  deriving DecidableEq, Repr

/-- The machine right after `Reset` (R38, R230). `waitReg` and the stack's unused entries have no reset value in the spec
(DESIGN CHOICE, unsafe, log entries 7, 8); `draws` is the model's own (DESIGN CHOICE, safe, log entry 4). Memory lists nothing: every byte reads as its boot content. -/
def State.reset : State where
  V := Vector.replicate 16 0x00#8
  I := 0x0000#16
  pc := 0x0200#16
  stack := Vector.replicate 16 0x0000#16
  sp := 0
  DT := 0x00#8
  ST := 0x00#8
  fb := Vector.replicate 32 (Vector.replicate 64 false)
  key := Vector.replicate 16 false
  mem := []
  status := .running
  waitReg := 0x0#4
  fault := none
  draws := 0

end Sys2Proof.Machine
end

