-- ==== Sys2Proof/Machine/Ops.lean ====
section
/-! DEFINITION. Machine/Ops.lean: the named operations over registers, memory, the call stack, the framebuffer and the
keypad; instruction fetch; taking a fatal error; the keypad poll of a waiting step. Instructions reach the state through
these only. -/

namespace Sys2Proof.Machine

/-! ### General registers -/

/-- Read `V[r]` (10_state.md R20). -/
def State.getV (s : State) (r : Nibble) : Byte := s.V[r.toNat]

/-- Write `V[r]`; VF is written like any other register (R20). -/
def State.setV (s : State) (r : Nibble) (b : Byte) : State := { s with V := s.V.set r.toNat b }

/-! ### Memory -/

/-- What a byte that nothing has written reads as: its content after `Reset`, the font at `FONT_BASE` in the reserved area
and zero elsewhere (R30, R31). -/
def Memory.bootByte (a : Nat) : Byte :=
  if a < Config.programBase then
    if h : Config.fontBase.val ≤ a ∧ a < Config.fontBase.val + Config.fontSize then
      Config.fontData[a - Config.fontBase.val]
    else 0x00#8
  else 0x00#8

/-- The byte at an address, with no bounds check. -/
def Memory.peek : Memory → Nat → Byte
  | [], a => Memory.bootByte a
  | (b, v) :: m, a => if a = b then v else Memory.peek m a

/-- Put a byte at an address, with no bounds check, keeping the canonical form: the boot content is not listed. -/
def Memory.poke : Memory → Nat → Byte → Memory
  | [], a, v => if v = Memory.bootByte a then [] else [(a, v)]
  | (b, u) :: m, a, v =>
    if a < b then
      if v = Memory.bootByte a then (b, u) :: m else (a, v) :: (b, u) :: m
    else if a = b then
      if v = Memory.bootByte a then m else (a, v) :: m
    else (b, u) :: Memory.poke m a v

/-- Copy bytes into memory from an address up, with no bounds check. -/
def Memory.pokeAll : Memory → Nat → List Byte → Memory
  | m, _, [] => m
  | m, a, b :: bs => Memory.pokeAll (Memory.poke m a b) (a + 1) bs

/-- The canonical form from address `lo` on. -/
def Memory.wfFrom (lo : Nat) : Memory → Bool
  | [] => true
  | (a, v) :: m =>
    decide (lo ≤ a) && decide (a < Config.memSize) && (v != Memory.bootByte a) && Memory.wfFrom (a + 1) m

/-- The canonical form: addresses strictly rising, inside memory, no cell equal to the boot content of its address. -/
def Memory.wf (m : Memory) : Bool := Memory.wfFrom 0 m

/-- `MemRead(addr, 1)`, the address unbounded and never reduced; `none` where it raises `AddressingError`
(20_memory.md R50, R53; UNVERIFIED, unsafe, log entry 20). -/
def State.memRead (s : State) (a : Nat) : Option Byte :=
  if a < Config.memSize then some (Memory.peek s.mem a) else none

/-- `MemRead(addr, 2)`, big-endian, both bytes bounds-checked (R52). -/
def State.memRead2 (s : State) (a : Nat) : Option Word :=
  match s.memRead a, s.memRead (a + 1) with
  | some hi, some lo => some (wordOfBytes hi lo)
  | _, _ => none

/-- `MemWrite(addr, 1, v)`; every address of memory is writable; `none` where it raises `AddressingError` (R51). -/
def State.memWrite (s : State) (a : Nat) (v : Byte) : Option State :=
  if a < Config.memSize then some { s with mem := Memory.poke s.mem a v } else none

/-- Read `n` bytes from `a` up, ascending; `none` at the first address out of range (R57, R59). -/
def State.readRange (s : State) : Nat → Nat → Option (List Byte)
  | _, 0 => some []
  | a, n + 1 =>
    match s.memRead a, s.readRange (a + 1) n with
    | some b, some bs => some (b :: bs)
    | _, _ => none

/-- Write the bytes from `a` up, ascending; `none` when some address is out of range (R57, R59). -/
def State.writeRange : State → Nat → List Byte → Option State
  | s, _, [] => some s
  | s, a, b :: bs =>
    match s.memWrite a b with
    | some t => t.writeRange (a + 1) bs
    | none => none

/-- Load the bytes into `V[r]`, `V[r+1]`, ... in order (42_index_and_memory.md R147). -/
def State.loadRegs : State → Nat → List Byte → State
  | s, _, [] => s
  | s, r, b :: bs => (s.setV (BitVec.ofNat 4 r) b).loadRegs (r + 1) bs

/-- The registers `V[r]`, `V[r+1]`, ..., `n` of them, in order (R146). -/
def State.regs (s : State) : Nat → Nat → List Byte
  | _, 0 => []
  | r, n + 1 => s.getV (BitVec.ofNat 4 r) :: s.regs (r + 1) n

/-! ### What a faulting range instruction leaves (R59, R207, U5)

Each in-bounds location of the range holds its old value or the one the instruction would have given it, which of the two
being free per location (DESIGN CHOICE, safe, log entry 5). -/

/-- Write an arbitrary subset of the in-bounds bytes of a range: location `k` exactly when `done k`. -/
def State.writeSome (done : Nat → Bool) : State → Nat → Nat → List Byte → State
  | s, _, _, [] => s
  | s, a, k, b :: bs =>
    State.writeSome done { s with mem := if a < Config.memSize ∧ done k then Memory.poke s.mem a b else s.mem } (a + 1) (k + 1) bs

/-- Load an arbitrary subset of the registers of a range from its in-bounds bytes: `V[k]` from address `a + k` exactly when
`done k`, for the `n` registers from `k` on. -/
def State.loadSome (done : Nat → Bool) : State → Nat → Nat → Nat → State
  | s, _, _, 0 => s
  | s, a, k, n + 1 =>
    State.loadSome done
      { s with V := if a < Config.memSize ∧ done k then (s.setV (BitVec.ofNat 4 k) (Memory.peek s.mem a)).V else s.V }
      (a + 1) (k + 1) n

/-- Advance the counter of free values used: the next one is a fresh one. -/
def State.tickDraws (s : State) : State := { s with draws := s.draws + 1 }

/-! ### Program counter, fetch, errors -/

/-- `pc <- (pc + 2) mod 65536`, the fetch advance and a taken skip alike (R23, R55). -/
def State.advance (s : State) : State := { s with pc := s.pc + 2#16 }

/-- `pc <- (pc + 2) mod 65536` when the condition holds (R104 to R107, R170, R171). -/
def State.skipIf (s : State) (c : Bool) : State := if c then s.advance else s

/-- `pc <- target`. -/
def State.jump (s : State) (target : Word) : State := { s with pc := target }

/-- The word at `pc`; `none` where the fetch raises `AddressingError`, that is at `pc > 0xFFE` (R55). -/
def State.fetch (s : State) : Option Word := s.memRead2 s.pc.toNat

/-- TAKING A FATAL ERROR (60_exceptions.md R204, R205), the one operation all of them use: `status <- Halted`, `fault` records the
kind, the address the instruction was fetched from and its word. There is no handler and no return (R209): `Reset` is
the only way out (UNVERIFIED, unsafe, log entry 24). -/
def State.raise (s : State) (kind : ErrorKind) (ipc : Word) (opcode : Option Word) : State :=
  { s with status := .halted, fault := some { kind := kind, pc := ipc, opcode := opcode } }

/-- The error of a fetch: nothing changes but `status` and `fault`, and no word was fetched (R207). -/
def State.fetchError (s : State) : State := s.raise .addressingError s.pc none

/-- A step in Halted changes nothing (R201). -/
def State.haltedStep (s : State) : State := s

/-! ### Call stack (R25) -/

/-- Push: `none` where it raises `StackOverflow` (UNVERIFIED, safe, log entry 19). -/
def State.pushCall (s : State) (addr : Word) : Option State :=
  if h : s.sp.val < Config.stackDepth then
    some { s with stack := s.stack.set s.sp.val addr, sp := ⟨s.sp.val + 1, by simp only [Config.stackDepth] at h; omega⟩ }
  else none

/-- Pop: the newest entry and the state without it; `none` where it raises `StackUnderflow`. The entry itself stays (DESIGN CHOICE,
unsafe, log entry 8). -/
def State.popCall (s : State) : Option (Word × State) :=
  if h : s.sp.val = 0 then none
  else some (s.stack[s.sp.val - 1], { s with sp := ⟨s.sp.val - 1, by omega⟩ })

/-! ### Framebuffer (R28, 43_graphics.md R160, R161) -/

/-- The pixel at column `x`, row `y`; off outside the grid (nothing reads there). -/
def Framebuffer.pixel (fb : Framebuffer) (x y : Nat) : Bool := (fb[y]?.bind (·[x]?)).getD false

/-- Every pixel off (R160). -/
def Framebuffer.blank : Framebuffer := Vector.replicate 32 (Vector.replicate 64 false)

/-- One pixel of a sprite: clipped outside the grid, else XORed in; the second component says whether any pixel so far went
from on to off, judged on the pixel before the XOR (R161). -/
def Framebuffer.drawPixel (px py : Nat) (bit : Bool) (acc : Framebuffer × Bool) : Framebuffer × Bool :=
  if h : px < 64 ∧ py < 32 then
    (acc.1.set py ((acc.1[py]'h.2).set px ((acc.1[py]'h.2)[px]'h.1 ^^ bit) h.1) h.2,
      acc.2 || (bit && (acc.1[py]'h.2)[px]'h.1))
  else acc

/-- One row of a sprite: bit 7 of the byte is the leftmost column; the column sum is unbounded (R161;
UNVERIFIED, unsafe, log entry 18). -/
def Framebuffer.drawRow (ax py : Nat) (row : Byte) (acc : Framebuffer × Bool) : Framebuffer × Bool :=
  (List.range 8).foldl (fun acc c => Framebuffer.drawPixel (ax + c) py (row.getLsbD (7 - c)) acc) acc

/-- The rows of a sprite from row `py` down (R161). -/
def Framebuffer.drawRows (ax : Nat) : Nat → List Byte → Framebuffer × Bool → Framebuffer × Bool
  | _, [], acc => acc
  | py, b :: bs, acc => Framebuffer.drawRows ax (py + 1) bs (Framebuffer.drawRow ax py b acc)

/-! ### Keypad (R29, 44_keypad_and_timers.md R172, 60_exceptions.md R202) -/

/-- `key[k]`. -/
def State.keyDown (s : State) (k : Nibble) : Bool := s.key[k.toNat]

/-- The numbers of the pressed keys, ascending. -/
def pressedKeys (key : Vector Bool 16) : List (Fin 16) := (List.finRange 16).filter (fun k => key[k])

/-- `KEY_PRIORITY(key)`: `none` when no key is pressed, the key when one is, and one of them, by the free choice of Config, when
several are (R172 (d), U16). -/
def keyPriority (key : Vector Bool 16) : Option (Fin 16) :=
  match pressedKeys key with
  | [] => none
  | [k] => some k
  | k :: _ => if key[Config.keyChoice key] then some (Config.keyChoice key) else some k

/-- The step of a waiting engine: poll the level of the key flags, fetch nothing (R202; UNVERIFIED, unsafe, log entry 17). -/
def State.pollKeypad (s : State) : State :=
  match keyPriority s.key with
  | none => s
  | some k => { s.setV s.waitReg (BitVec.ofNat 8 k.val) with status := .running }

end Sys2Proof.Machine
end

