-- ==== Sys2Proof/Machine/Operands.lean ====
section
/-! DEFINITION. Machine/Operands.lean: every operand form of the instructions (30_encoding.md R73, 42_index_and_memory.md R144).
Registers are read with `State.getV`; what stands here is how the other operands are formed. -/

namespace Sys2Proof.Machine

/-- The register VF, `V[15]` (10_state.md R21). -/
def VF : Nibble := 0xF#4

/-- The literal `nnn` as a 16-bit value, zeros in bits 15 to 12 (R73). -/
def literalWord (nnn : Literal) : Word := nnn.setWidth 16

/-- `nnn + V[0]`, at most 0x10FE, not reduced modulo 4096 (40_control_flow.md R103; UNVERIFIED, unsafe, log
entry 20). -/
def State.offsetTarget (s : State) (nnn : Literal) : Word := literalWord nnn + (s.getV 0x0#4).setWidth 16

/-- The first byte address of the one data addressing mode: `I` as an unbounded integer (R144, R53). -/
def State.dataAddress (s : State) : Nat := s.I.toNat

/-- How many registers `V0` to `Vx` name: `x + 1` (R146, R147). -/
def regCount (x : Nibble) : Nat := x.toNat + 1

/-- `FONT_BASE + 5 * Vx`, the register whole, not masked to its low nibble (R142; UNVERIFIED, unsafe, log entry 21). -/
def glyphAddress (vx : Byte) : Word := BitVec.ofNat 16 (Config.fontBase.val + 5 * vx.toNat)

/-- The hundreds, tens and ones of a byte, each as a whole byte (R143). -/
def bcdDigits (vx : Byte) : List Byte :=
  [BitVec.ofNat 8 (vx.toNat / 100), BitVec.ofNat 8 (vx.toNat / 10 % 10), BitVec.ofNat 8 (vx.toNat % 10)]

/-- The key a register value selects: its low 4 bits (44_keypad_and_timers.md R170; UNVERIFIED, unsafe, log entry 16). -/
def keySelect (vx : Byte) : Nibble := vx.extractLsb' 0 4

end Sys2Proof.Machine
end

