-- ==== Sys2Proof/Machine/Flags.lean ====
section
/-! DEFINITION. Machine/Flags.lean: the value each flag-writing instruction leaves in VF (10_state.md R21) and the order in
which flag and result are written (00_scope.md R13). -/

namespace Sys2Proof.Machine

/-- A flag as the byte VF holds: 0x01 or 0x00 (R21). -/
def flagByte (b : Bool) : Byte := if b then 0x01#8 else 0x00#8

/-- The carry of `8xy4`: `Vx + Vy > 255` (41_load_arithmetic_logic.md R127). -/
def carryFlag (vx vy : Byte) : Byte := flagByte (decide (vx.toNat + vy.toNat > 255))

/-- The flag of a subtraction `a - b`: `a > b`, strictly (R128, R129, 90_conflicts.md C2). -/
def greaterFlag (a b : Byte) : Byte := flagByte (decide (a.toNat > b.toNat))

/-- The flag of `8xy6`: bit 0 of Vx before the shift (R130). -/
def lowBitFlag (vx : Byte) : Byte := flagByte (vx.getLsbD 0)

/-- The flag of `8xyE`: bit 7 of Vx before the shift (R131). -/
def highBitFlag (vx : Byte) : Byte := flagByte (vx.getLsbD 7)

/-- Write VF, then Vx: at `x = 15` the result stays and not the flag (R13, D8, UNVERIFIED, unsafe, log entry 15). -/
def State.writeFlagThenResult (s : State) (x : Nibble) (flag result : Byte) : State :=
  (s.setV VF flag).setV x result

end Sys2Proof.Machine
end

