-- ==== Sys2Proof/Machine/Arithmetic.lean ====
section
/-! DEFINITION. Machine/Arithmetic.lean: load, arithmetic, logic, shift and random (41_load_arithmetic_logic.md). All values
are unsigned bytes and wrap modulo 256 (R133). Each meaning takes the state before the fetch advance (DESIGN CHOICE, safe, log entry 25). -/

namespace Sys2Proof.Machine

/-- `6xkk` (R120). -/
def execLdImm (x : Nibble) (kk : Byte) (s₀ : State) : Host.Outcome State Fault Refusal :=
  .next (s₀.advance.setV x kk)

/-- `7xkk`, no flag (R121). -/
def execAddImm (x : Nibble) (kk : Byte) (s₀ : State) : Host.Outcome State Fault Refusal :=
  let s := s₀.advance
  .next (s.setV x (s.getV x + kk))

/-- `8xy0` (R122). -/
def execLdReg (x y : Nibble) (s₀ : State) : Host.Outcome State Fault Refusal :=
  let s := s₀.advance
  .next (s.setV x (s.getV y))

/-- `8xy1`, VF untouched (R124). -/
def execOrReg (x y : Nibble) (s₀ : State) : Host.Outcome State Fault Refusal :=
  let s := s₀.advance
  .next (s.setV x (s.getV x ||| s.getV y))

/-- `8xy2`, VF untouched (R125). -/
def execAndReg (x y : Nibble) (s₀ : State) : Host.Outcome State Fault Refusal :=
  let s := s₀.advance
  .next (s.setV x (s.getV x &&& s.getV y))

/-- `8xy3`, VF untouched (R126). -/
def execXorReg (x y : Nibble) (s₀ : State) : Host.Outcome State Fault Refusal :=
  let s := s₀.advance
  .next (s.setV x (s.getV x ^^^ s.getV y))

/-- `8xy4` (R127). -/
def execAddReg (x y : Nibble) (s₀ : State) : Host.Outcome State Fault Refusal :=
  let s := s₀.advance
  let vx := s.getV x
  let vy := s.getV y
  .next (s.writeFlagThenResult x (carryFlag vx vy) (vx + vy))

/-- `8xy5` (R128). -/
def execSub (x y : Nibble) (s₀ : State) : Host.Outcome State Fault Refusal :=
  let s := s₀.advance
  let vx := s.getV x
  let vy := s.getV y
  .next (s.writeFlagThenResult x (greaterFlag vx vy) (vx - vy))

/-- `8xy6`; the field `y` is ignored (R130). -/
def execShr (x _y : Nibble) (s₀ : State) : Host.Outcome State Fault Refusal :=
  let s := s₀.advance
  let vx := s.getV x
  .next (s.writeFlagThenResult x (lowBitFlag vx) (vx >>> 1))

/-- `8xy7` (R129). -/
def execSubn (x y : Nibble) (s₀ : State) : Host.Outcome State Fault Refusal :=
  let s := s₀.advance
  let vx := s.getV x
  let vy := s.getV y
  .next (s.writeFlagThenResult x (greaterFlag vy vx) (vy - vx))

/-- `8xyE`; the field `y` is ignored (R131). -/
def execShl (x _y : Nibble) (s₀ : State) : Host.Outcome State Fault Refusal :=
  let s := s₀.advance
  let vx := s.getV x
  .next (s.writeFlagThenResult x (highBitFlag vx) (vx <<< 1))

/-- `Cxkk`: a free byte ANDed with the mask (R132, R12). -/
def execRnd (x : Nibble) (kk : Byte) (s₀ : State) : Host.Outcome State Fault Refusal :=
  let s := s₀.advance
  .next ((s.setV x (Config.rand s.draws &&& kk)).tickDraws)

end Sys2Proof.Machine
end

