-- ==== Sys2Proof/Machine/ControlFlow.lean ====
section
/-! DEFINITION. Machine/ControlFlow.lean: RET, JP, CALL, JP V0 and the four register skips (40_control_flow.md). Each meaning
takes the state before the fetch advance (DESIGN CHOICE, safe, log entry 25). -/

namespace Sys2Proof.Machine

/-- `00EE` (R100): the popped value is the pc; an empty stack raises StackUnderflow. -/
def execRet (s₀ : State) : Host.Outcome State Fault Refusal :=
  let s := s₀.advance
  match s.popCall with
  | some (addr, t) => .next (t.jump addr)
  | none => .next (s.raise .stackUnderflow s₀.pc (some (encode .ret)))

/-- `1nnn` (R101). -/
def execJp (nnn : Literal) (s₀ : State) : Host.Outcome State Fault Refusal :=
  .next (s₀.advance.jump (literalWord nnn))

/-- `2nnn` (R102): push the address after the CALL, then jump; a full stack raises StackOverflow. -/
def execCall (nnn : Literal) (s₀ : State) : Host.Outcome State Fault Refusal :=
  let s := s₀.advance
  match s.pushCall s.pc with
  | some t => .next (t.jump (literalWord nnn))
  | none => .next (s.raise .stackOverflow s₀.pc (some (encode (.call nnn))))

/-- `Bnnn` (R103). -/
def execJpV0 (nnn : Literal) (s₀ : State) : Host.Outcome State Fault Refusal :=
  let s := s₀.advance
  .next (s.jump (s.offsetTarget nnn))

/-- `3xkk` (R104). -/
def execSeImm (x : Nibble) (kk : Byte) (s₀ : State) : Host.Outcome State Fault Refusal :=
  let s := s₀.advance
  .next (s.skipIf (s.getV x == kk))

/-- `4xkk` (R105). -/
def execSneImm (x : Nibble) (kk : Byte) (s₀ : State) : Host.Outcome State Fault Refusal :=
  let s := s₀.advance
  .next (s.skipIf (s.getV x != kk))

/-- `5xy0` (R106). -/
def execSeReg (x y : Nibble) (s₀ : State) : Host.Outcome State Fault Refusal :=
  let s := s₀.advance
  .next (s.skipIf (s.getV x == s.getV y))

/-- `9xy0` (R107). -/
def execSneReg (x y : Nibble) (s₀ : State) : Host.Outcome State Fault Refusal :=
  let s := s₀.advance
  .next (s.skipIf (s.getV x != s.getV y))

end Sys2Proof.Machine
end

