-- ==== Sys2Proof/Machine/Graphics.lean ====
section
/-! DEFINITION. Machine/Graphics.lean: CLS and DRW (43_graphics.md). Each meaning takes the state before the fetch advance
(DESIGN CHOICE, safe, log entry 25). -/

namespace Sys2Proof.Machine

/-- `00E0`; VF is not written (R160). -/
def execCls (s₀ : State) : Host.Outcome State Fault Refusal :=
  .next { s₀.advance with fb := Framebuffer.blank }

/-- `Dxyn` (R161): read all `n` rows, XOR them in at the unreduced anchor with clipping, then write VF. A DRW that raises has
changed neither the framebuffer nor VF. -/
def execDrw (x y n : Nibble) (s₀ : State) : Host.Outcome State Fault Refusal :=
  let s := s₀.advance
  match s.readRange s.dataAddress n.toNat with
  | some rows =>
    let drawn := Framebuffer.drawRows (s.getV x).toNat (s.getV y).toNat rows (s.fb, false)
    .next (State.setV { s with fb := drawn.1 } VF (flagByte drawn.2))
  | none => .next (s.raise .addressingError s₀.pc (some (encode (.drw x y n))))

end Sys2Proof.Machine
end

