-- ==== Sys2Proof/Machine/IndexMemory.lean ====
section
/-! DEFINITION. Machine/IndexMemory.lean: the index register and memory instructions (42_index_and_memory.md). `I` is never
changed by an access (R144; UNVERIFIED, unsafe, log entry 21); a range with one byte out of bounds raises as a whole (R145), leaving each of its in-bounds
locations old or new (R59). Each meaning takes the state before the fetch advance (DESIGN CHOICE, safe, log entry 25). -/

namespace Sys2Proof.Machine

/-- `Annn` (R140). -/
def execLdI (nnn : Literal) (s₀ : State) : Host.Outcome State Fault Refusal :=
  .next { s₀.advance with I := literalWord nnn }

/-- `Fx1E`, modulo 65536, no flag (R141). -/
def execAddI (x : Nibble) (s₀ : State) : Host.Outcome State Fault Refusal :=
  let s := s₀.advance
  .next { s with I := s.I + (s.getV x).setWidth 16 }

/-- `Fx29` (R142). -/
def execLdF (x : Nibble) (s₀ : State) : Host.Outcome State Fault Refusal :=
  let s := s₀.advance
  .next { s with I := glyphAddress (s.getV x) }

/-- Store bytes at `I` up, or raise `AddressingError` for instruction `i` fetched at `ipc` (R143, R146, R59). -/
def State.storeAtI (s : State) (i : Instr) (ipc : Word) (bs : List Byte) : State :=
  match s.writeRange s.dataAddress bs with
  | some t => t
  | none =>
    ((s.writeSome (Config.partialDone s.draws) s.dataAddress 0 bs).tickDraws).raise .addressingError ipc (some (encode i))

/-- `Fx33` (R143). -/
def execLdB (x : Nibble) (s₀ : State) : Host.Outcome State Fault Refusal :=
  let s := s₀.advance
  .next (s.storeAtI (.ldB x) s₀.pc (bcdDigits (s.getV x)))

/-- `Fx55`: V0 up to and including Vx (R146). -/
def execLdMemVx (x : Nibble) (s₀ : State) : Host.Outcome State Fault Refusal :=
  let s := s₀.advance
  .next (s.storeAtI (.ldMemVx x) s₀.pc (s.regs 0 (regCount x)))

/-- `Fx65`: V0 up to and including Vx (R147). -/
def execLdVxMem (x : Nibble) (s₀ : State) : Host.Outcome State Fault Refusal :=
  let s := s₀.advance
  match s.readRange s.dataAddress (regCount x) with
  | some bs => .next (s.loadRegs 0 bs)
  | none =>
    .next (((s.loadSome (Config.partialDone s.draws) s.dataAddress 0 (regCount x)).tickDraws).raise .addressingError s₀.pc
      (some (encode (.ldVxMem x))))

end Sys2Proof.Machine
end

