-- ==== Sys2Proof/Machine/KeypadTimers.lean ====
section
/-! DEFINITION. Machine/KeypadTimers.lean: key skips, key wait and the timer copies (44_keypad_and_timers.md). Each meaning takes
the state before the fetch advance (DESIGN CHOICE, safe, log entry 25). -/

namespace Sys2Proof.Machine

/-- `Ex9E`: the key is the low nibble of the value in Vx (R170). -/
def execSkp (x : Nibble) (s₀ : State) : Host.Outcome State Fault Refusal :=
  let s := s₀.advance
  .next (s.skipIf (s.keyDown (keySelect (s.getV x))))

/-- `ExA1` (R171). -/
def execSknp (x : Nibble) (s₀ : State) : Host.Outcome State Fault Refusal :=
  let s := s₀.advance
  .next (s.skipIf (!s.keyDown (keySelect (s.getV x))))

/-- `Fx07` (R173). -/
def execLdVxDT (x : Nibble) (s₀ : State) : Host.Outcome State Fault Refusal :=
  let s := s₀.advance
  .next (s.setV x s.DT)

/-- `Fx0A`: start waiting; the keys are first looked at by the next step (R172, `State.pollKeypad`). -/
def execLdVxK (x : Nibble) (s₀ : State) : Host.Outcome State Fault Refusal :=
  .next { s₀.advance with waitReg := x, status := .waitingForKey }

/-- `Fx15` (R174). -/
def execLdDTVx (x : Nibble) (s₀ : State) : Host.Outcome State Fault Refusal :=
  let s := s₀.advance
  .next { s with DT := s.getV x }

/-- `Fx18` (R175). -/
def execLdSTVx (x : Nibble) (s₀ : State) : Host.Outcome State Fault Refusal :=
  let s := s₀.advance
  .next { s with ST := s.getV x }

end Sys2Proof.Machine
end

