-- ==== Sys2Proof/Machine/SysUnknown.lean ====
section
/-! DEFINITION. Machine/SysUnknown.lean: SYS and the words that decode to no instruction (45_sys_and_unknown.md).

Every meaning of this and the other family files takes the state BEFORE the fetch advance, `pc` being the instruction's own
address `ipc`, and makes the advance itself, so that `step` on a fetched instruction is exactly `exec` of it (DESIGN CHOICE, safe, log entry 25). -/

namespace Sys2Proof.Machine

/-- `0nnn`, no operation (R190). -/
def execSys (_nnn : Literal) (s : State) : Host.Outcome State Fault Refusal :=
  .next s.advance

/-- A word of the UNKNOWN class: no operation; the advisory is part of the step's reply (`stepReply`), not of the state
(R191, R206). -/
def execUnknown (s : State) : Host.Outcome State Fault Refusal :=
  .next s.advance

end Sys2Proof.Machine
end

