-- ==== Sys2Proof/Machine/Step.lean ====
section
/-! DEFINITION. Machine/Step.lean: the `Step` event (60_exceptions.md R200), and where the host places an instruction. -/

namespace Sys2Proof.Machine

/-- One `Step` (R200). Halted: nothing changes (R201). WaitingForKey: poll the keypad (R202). Running: fetch, decode, execute;
a fetch error is taken (R55, R204), a word of the UNKNOWN class runs as a no-op (R191). -/
def step (s : State) : Host.Outcome State Fault Refusal :=
  match s.status with
  | .halted => .next s.haltedStep
  | .waitingForKey => .next s.pollKeypad
  | .running =>
    match s.fetch with
    | none => .next s.fetchError
    | some w =>
      match decodeWord w with
      | .ok i => exec i s
      | .error _ => execUnknown s

/-- `s` with the instruction word `w` of `nbits` bits stored where `step` fetches next, high byte first (R54), and the engine
Running, since only a Running engine fetches. It stands for the program having been loaded there (DEDUCED, safe, log entry 11). -/
def State.withFetchWord (s : State) (nbits w : Nat) : State :=
  { s with
    mem := Memory.poke (Memory.poke s.mem s.pc.toNat (highByte (BitVec.ofNat 16 (w % 2 ^ nbits)))) (s.pc.toNat + 1)
      (lowByte (BitVec.ofNat 16 (w % 2 ^ nbits)))
    status := .running }

end Sys2Proof.Machine
end

