-- ==== Sys2Proof/Machine/Events.lean ====
section
/-! DEFINITION. Machine/Events.lean: what a `Step` returns to its caller, the five other events around the engine
(00_scope.md R4, 10_state.md R40), and the six together under the host's load protocol (70_reset_and_hazards.md R232, R234). Every
event is atomic and lands between two others; a schedule is any list of events (R4, R208). -/

namespace Sys2Proof.Machine

/-- What an event returns to its caller. -/
inductive Reply where
  /-- `Ok`. -/
  | ok
  /-- `Ok` with the non-fatal `UnknownOpcode` advisory: the address and the word (R206). -/
  | unknownOpcode (ipc word : Word)
  /-- The `FatalError` of a step (R204), or the one recorded, from a step in Halted (R201). -/
  | fatal (f : FatalError)
  /-- The `AddressingError` of a `Load` that is too long (R232). -/
  | programTooLarge
  /-- The framebuffer a `ReadDisplay` returns (R220). -/
  | display (fb : Framebuffer)
  deriving DecidableEq, Repr

/-- The advisory of a step in Running: the word at `pc`, when it is of the UNKNOWN class (R206). -/
def State.advisory (s : State) : Option Word :=
  match s.status, s.fetch with
  | .running, some w =>
    match decodeWord w with
    | .ok _ => none
    | .error _ => some w
  | _, _ => none

/-- What the `Step` taken from `s` returns (R200): the fault if it leaves the engine Halted, else `Ok`, with the advisory for a
word of the UNKNOWN class. The advisory is stored nowhere. -/
def stepReply (s : State) : Reply :=
  match step s with
  | .next t =>
    match t.status, t.fault with
    | .halted, some f => .fatal f
    | _, _ =>
      match s.advisory with
      | some w => .unknownOpcode s.pc w
      | none => .ok
  | _ => .ok

/-- `Reset` (R230), at any time: every piece of the spec's state at its reset value. The model's own counter of free values goes
on, so that no value drawn before is promised again (DESIGN CHOICE, safe, log entry 4). -/
def State.resetEvent (s : State) : State := { State.reset with draws := s.draws }

/-- `Load(bytes)` (R232): the program from 0x200 up, unchanged; too long a program is an error and nothing is written. -/
def load (bytes : List Byte) (s : State) : Host.Outcome State Fault Refusal :=
  if bytes.length > Config.maxProgram then .fault .programTooLarge
  else .next { s with mem := Memory.pokeAll s.mem Config.programBase bytes }

/-- One timer's tick: down by 1 while above 0 (R215). -/
def countDown (t : Byte) : Byte := if t.toNat > 0 then t - 0x01#8 else t

/-- `TimerTick` (R215), in every status (UNVERIFIED, unsafe, log entry 22). -/
def State.timerTick (s : State) : State := { s with DT := countDown s.DT, ST := countDown s.ST }

/-- `SetKey(code, pressed)` (R218), in every status; it never changes `status`. -/
def State.setKey (s : State) (code : Nibble) (pressed : Bool) : State := { s with key := s.key.set code.toNat pressed }

/-- `ReadDisplay` (R220): the pixels as they stand. -/
def State.readDisplay (s : State) : Framebuffer := s.fb

/-- The six events (R4). -/
inductive Event where
  | reset
  | load (bytes : List Byte)
  | step
  | timerTick
  | setKey (code : Nibble) (pressed : Bool)
  | readDisplay
  deriving DecidableEq, Repr

/-- How far the host is in the boot order (R234): what decides whether a `Load` or a `Step` has a meaning (R232, R242, D19).
The host's record, not hardware state (DESIGN CHOICE, safe, log entry 13). -/
inductive LoadPhase where
  /-- Reset, neither loaded nor stepped since. -/
  | fresh
  /-- A `Load` succeeded, no `Step` since. -/
  | loaded
  /-- A `Load` failed: the machine must not be stepped. -/
  | loadFailed
  /-- Stepped since the last `Reset`. -/
  | stepped
  deriving DecidableEq, Repr

/-- A machine and its host's record of the boot order. -/
structure Session where
  machine : State
  phase : LoadPhase
  deriving DecidableEq, Repr

/-- A session right after its first `Reset`. -/
def Session.boot : Session := { machine := State.reset, phase := .fresh }

/-- A `Load` in a session: only on a freshly reset machine (D19, U11); one that fails leaves the machine as it is (R232). -/
def Session.loadEvent (σ : Session) (bytes : List Byte) : Host.Outcome (Session × Reply) Fault Refusal :=
  match σ.phase with
  | .fresh =>
    match load bytes σ.machine with
    | .next m => .next ({ machine := m, phase := .loaded }, .ok)
    | .fault _ => .next ({ σ with phase := .loadFailed }, .programTooLarge)
    | .refused r => .refused r
  | _ => .refused .loadNotFresh

/-- A `Step` in a session: not after a failed `Load` (R242 (d), U11). -/
def Session.stepEvent (σ : Session) : Host.Outcome (Session × Reply) Fault Refusal :=
  match σ.phase with
  | .loadFailed => .refused .stepAfterFailedLoad
  | _ =>
    match step σ.machine with
    | .next m => .next ({ machine := m, phase := .stepped }, stepReply σ.machine)
    | .fault r => .fault r
    | .refused r => .refused r

/-- One event of a session: the session after it and what it returns. -/
def Session.event (e : Event) (σ : Session) : Host.Outcome (Session × Reply) Fault Refusal :=
  match e with
  | .reset => .next ({ machine := σ.machine.resetEvent, phase := .fresh }, .ok)
  | .load bytes => σ.loadEvent bytes
  | .step => σ.stepEvent
  | .timerTick => .next ({ σ with machine := σ.machine.timerTick }, .ok)
  | .setKey code pressed => .next ({ σ with machine := σ.machine.setKey code pressed }, .ok)
  | .readDisplay => .next (σ, .display σ.machine.readDisplay)

/-- A schedule: the events in order, stopping at the first one that is given no meaning. -/
def Session.run : List Event → Session → Host.Outcome Session Fault Refusal
  | [], σ => .next σ
  | e :: es, σ =>
    match σ.event e with
    | .next (τ, _) => τ.run es
    | .fault r => .fault r
    | .refused r => .refused r

end Sys2Proof.Machine
end

