-- ==== Sys2Proof/Safety.lean ====
section
/-! DEFINITION. Safety.lean: what every reachable state of the machine satisfies, and what counts as a safe step, in the terms the
statements use. -/

namespace Sys2Proof.Machine

/-- Memory keeps its canonical form: cells inside 0x000 to 0xFFF, rising, none equal to its boot content. -/
def State.MemInv (s : State) : Prop := s.mem.wf = true

/-- The largest values control flow can reach (10_state.md R23): `pc` at most 0x10FE, every return address in use at most
0x1000. -/
def State.FlowInv (s : State) : Prop :=
  s.pc.toNat ≤ 0x10FE ∧ ∀ k : Fin 16, k.val < s.sp.val → s.stack[k].toNat ≤ 0x1000

/-- A fatal error is recorded exactly while the engine is Halted (R33, R35); its `pc` is one a fetch can start from, and its
word is absent exactly for a failed fetch, which is an addressing error (R205). -/
def State.FaultInv (s : State) : Prop :=
  (s.status = .halted ↔ s.fault.isSome) ∧
    ∀ f, s.fault = some f → (f.opcode = none ↔ f.pc.toNat > 0xFFE) ∧ (f.opcode = none → f.kind = .addressingError)

/-- The invariant of the machine. -/
def State.Inv (s : State) : Prop := s.MemInv ∧ s.FlowInv ∧ s.FaultInv

/-- A state in which no fatal error stands: what a claim about a program takes as its premise (R207). -/
def State.Safe (s : State) : Prop := s.status ≠ .halted

/-- The condition under which a step in Running raises (60_exceptions.md R203): the fetch fails, or the instruction fetched is
one of the six that can raise, on its own condition. -/
def State.raises (s : State) : Option ErrorKind :=
  match s.fetch with
  | none => some .addressingError
  | some w =>
    match decodeWord w with
    | .ok .ret => if s.sp.val = 0 then some .stackUnderflow else none
    | .ok (.call _) => if s.sp.val = 16 then some .stackOverflow else none
    | .ok (.drw _ _ n) => if 1 ≤ n.toNat ∧ s.I.toNat + n.toNat - 1 > 0xFFF then some .addressingError else none
    | .ok (.ldB _) => if s.I.toNat + 2 > 0xFFF then some .addressingError else none
    | .ok (.ldMemVx x) => if s.I.toNat + x.toNat > 0xFFF then some .addressingError else none
    | .ok (.ldVxMem x) => if s.I.toNat + x.toNat > 0xFFF then some .addressingError else none
    | _ => none

/-- The sprite bit that lands on column `x`, row `y` when the rows are drawn at the anchor `(ax, ay)`: bit 7 of a row is its
leftmost column (43_graphics.md R161, D5). -/
def spriteBit (rows : List Byte) (ax ay x y : Nat) : Bool :=
  decide (ax ≤ x) && decide (x < ax + 8) && decide (ay ≤ y) && decide (y < ay + rows.length) &&
    (rows.getD (y - ay) 0).getLsbD (7 - (x - ax))

/-- The `n` bytes an instruction reads at `I` up. -/
def State.bytesAtI (s : State) (n : Nat) : List Byte := (List.range n).map fun k => Memory.peek s.mem (s.I.toNat + k)

/-- The instructions with a W in the V column of the access matrix (10_state.md R39). -/
def writesV : Instr → Bool
  | .cls => false
  | .ret => false
  | .sys _ => false
  | .jp _ => false
  | .call _ => false
  | .seImm _ _ => false
  | .sneImm _ _ => false
  | .seReg _ _ => false
  | .ldImm _ _ => true
  | .addImm _ _ => true
  | .ldReg _ _ => true
  | .orReg _ _ => true
  | .andReg _ _ => true
  | .xorReg _ _ => true
  | .addReg _ _ => true
  | .sub _ _ => true
  | .shr _ _ => true
  | .subn _ _ => true
  | .shl _ _ => true
  | .sneReg _ _ => false
  | .ldI _ => false
  | .jpV0 _ => false
  | .rnd _ _ => true
  | .drw _ _ _ => true
  | .skp _ => false
  | .sknp _ => false
  | .ldVxDT _ => true
  | .ldVxK _ => false
  | .ldDTVx _ => false
  | .ldSTVx _ => false
  | .addI _ => false
  | .ldF _ => false
  | .ldB _ => false
  | .ldMemVx _ => false
  | .ldVxMem _ => true

/-- The instructions with a W in the pc column of the access matrix (R39): the others leave the pc at the fetch advance. -/
def writesPc : Instr → Bool
  | .cls => false
  | .ret => true
  | .sys _ => false
  | .jp _ => true
  | .call _ => true
  | .seImm _ _ => true
  | .sneImm _ _ => true
  | .seReg _ _ => true
  | .ldImm _ _ => false
  | .addImm _ _ => false
  | .ldReg _ _ => false
  | .orReg _ _ => false
  | .andReg _ _ => false
  | .xorReg _ _ => false
  | .addReg _ _ => false
  | .sub _ _ => false
  | .shr _ _ => false
  | .subn _ _ => false
  | .shl _ _ => false
  | .sneReg _ _ => true
  | .ldI _ => false
  | .jpV0 _ => true
  | .rnd _ _ => false
  | .drw _ _ _ => false
  | .skp _ => true
  | .sknp _ => true
  | .ldVxDT _ => false
  | .ldVxK _ => false
  | .ldDTVx _ => false
  | .ldSTVx _ => false
  | .addI _ => false
  | .ldF _ => false
  | .ldB _ => false
  | .ldMemVx _ => false
  | .ldVxMem _ => false

/-! ### The shapes of effect the statements use -/

/-- Instruction `i` completes from `s`, and its only effects are the fetch advance and `V[x] <- v`. -/
def WritesRegister (i : Instr) (s : State) (x : Nibble) (v : Byte) : Prop :=
  ∃ t, exec i s = .next t ∧ t = { s with pc := s.pc + 2#16, V := t.V } ∧
    ∀ r, t.getV r = if r = x then v else s.getV r

/-- Instruction `i` completes from `s`, and its only effects are the fetch advance, `VF <- flag` and then `V[x] <- v`: at `x = 15`
the result stays (00_scope.md R13). -/
def WritesFlagAndRegister (i : Instr) (s : State) (x : Nibble) (flag v : Byte) : Prop :=
  ∃ t, exec i s = .next t ∧ t = { s with pc := s.pc + 2#16, V := t.V } ∧
    ∀ r, t.getV r = if r = x then v else if r = 0xF#4 then flag else s.getV r

/-- Instruction `i` completes from `s`, and its only effects are the fetch advance and the bytes `bs` stored at `I` up. -/
def StoresAtI (i : Instr) (s : State) (bs : List Byte) : Prop :=
  ∃ t, exec i s = .next t ∧ t = { s with pc := s.pc + 2#16, mem := t.mem } ∧
    ∀ a, t.memRead a =
      if s.I.toNat ≤ a ∧ a < s.I.toNat + bs.length then some (bs.getD (a - s.I.toNat) 0) else s.memRead a

/-- Instruction `i` raises `AddressingError` from `s` while storing the bytes `bs` at `I` up: every in-bounds byte of the range is
old or new, nothing else changes but the fetch advance, `status`, `fault` and the model's own counter (20_memory.md R59, 60_exceptions.md R207). -/
def StoreFaultsAtI (i : Instr) (s : State) (bs : List Byte) : Prop :=
  ∃ t, exec i s = .next t ∧
    t = { s with
      pc := s.pc + 2#16, mem := t.mem, draws := t.draws, status := .halted,
      fault := some { kind := .addressingError, pc := s.pc, opcode := some (encode i) } } ∧
    ∀ a, t.memRead a = s.memRead a ∨
      (s.I.toNat ≤ a ∧ a < s.I.toNat + bs.length ∧ a ≤ 0xFFF ∧ t.memRead a = some (bs.getD (a - s.I.toNat) 0))

end Sys2Proof.Machine
end

