-- ==== Sys2Proof/Certificates/Slice0/Obligations.lean ====
section
/-! DEFINITION. Certificates/Slice0/Obligations.lean: the statements for the provers, from the spec's numbered rules. -/

open Sys2Proof Sys2Proof.Machine

/-! ### Encoding and decoding (30_encoding.md) -/

/-- Decoding the word, or the two bytes, of a well-formed instruction gives it back, every operand at every value (R72, R74,
R75). The bit patterns are the spec's decision D1 (log entry 14). -/
def Obligations.DecodeEncodeRoundTrip : Prop :=
  ∀ i : Instr, i.wellFormed = true →
    decodeWord (encode i) = .ok i ∧ ∀ rest, decodeBytes (encodeBytes i ++ rest) = .ok (i, rest)

/-- Every word the decoder accepts is the encoding of the instruction it gives, which is well-formed: each word has one
meaning and no bit of it is dropped (R74). Rests on D1 (log entry 14). -/
def Obligations.EncodeDecodeRoundTrip : Prop :=
  ∀ (w : Word) (i : Instr), decodeWord w = .ok i → i.wellFormed = true ∧ encode i = w

/-- The decoder is the mask-and-match table of R74, row by row, each with its fields as R71 places them. Rests on D1, D2 (log
entry 14). -/
def Obligations.DecodeFollowsOpcodeMap : Prop :=
  ∀ w : Word,
    (w = 0x00E0#16 → decodeWord w = .ok .cls) ∧
    (w = 0x00EE#16 → decodeWord w = .ok .ret) ∧
    (w &&& 0xF000#16 = 0x0000#16 → w ≠ 0x00E0#16 → w ≠ 0x00EE#16 → decodeWord w = .ok (.sys (w.extractLsb' 0 12))) ∧
    (w &&& 0xF000#16 = 0x1000#16 → decodeWord w = .ok (.jp (w.extractLsb' 0 12))) ∧
    (w &&& 0xF000#16 = 0x2000#16 → decodeWord w = .ok (.call (w.extractLsb' 0 12))) ∧
    (w &&& 0xF000#16 = 0x3000#16 → decodeWord w = .ok (.seImm (w.extractLsb' 8 4) (w.extractLsb' 0 8))) ∧
    (w &&& 0xF000#16 = 0x4000#16 → decodeWord w = .ok (.sneImm (w.extractLsb' 8 4) (w.extractLsb' 0 8))) ∧
    (w &&& 0xF00F#16 = 0x5000#16 → decodeWord w = .ok (.seReg (w.extractLsb' 8 4) (w.extractLsb' 4 4))) ∧
    (w &&& 0xF000#16 = 0x6000#16 → decodeWord w = .ok (.ldImm (w.extractLsb' 8 4) (w.extractLsb' 0 8))) ∧
    (w &&& 0xF000#16 = 0x7000#16 → decodeWord w = .ok (.addImm (w.extractLsb' 8 4) (w.extractLsb' 0 8))) ∧
    (w &&& 0xF00F#16 = 0x8000#16 → decodeWord w = .ok (.ldReg (w.extractLsb' 8 4) (w.extractLsb' 4 4))) ∧
    (w &&& 0xF00F#16 = 0x8001#16 → decodeWord w = .ok (.orReg (w.extractLsb' 8 4) (w.extractLsb' 4 4))) ∧
    (w &&& 0xF00F#16 = 0x8002#16 → decodeWord w = .ok (.andReg (w.extractLsb' 8 4) (w.extractLsb' 4 4))) ∧
    (w &&& 0xF00F#16 = 0x8003#16 → decodeWord w = .ok (.xorReg (w.extractLsb' 8 4) (w.extractLsb' 4 4))) ∧
    (w &&& 0xF00F#16 = 0x8004#16 → decodeWord w = .ok (.addReg (w.extractLsb' 8 4) (w.extractLsb' 4 4))) ∧
    (w &&& 0xF00F#16 = 0x8005#16 → decodeWord w = .ok (.sub (w.extractLsb' 8 4) (w.extractLsb' 4 4))) ∧
    (w &&& 0xF00F#16 = 0x8006#16 → decodeWord w = .ok (.shr (w.extractLsb' 8 4) (w.extractLsb' 4 4))) ∧
    (w &&& 0xF00F#16 = 0x8007#16 → decodeWord w = .ok (.subn (w.extractLsb' 8 4) (w.extractLsb' 4 4))) ∧
    (w &&& 0xF00F#16 = 0x800E#16 → decodeWord w = .ok (.shl (w.extractLsb' 8 4) (w.extractLsb' 4 4))) ∧
    (w &&& 0xF00F#16 = 0x9000#16 → decodeWord w = .ok (.sneReg (w.extractLsb' 8 4) (w.extractLsb' 4 4))) ∧
    (w &&& 0xF000#16 = 0xA000#16 → decodeWord w = .ok (.ldI (w.extractLsb' 0 12))) ∧
    (w &&& 0xF000#16 = 0xB000#16 → decodeWord w = .ok (.jpV0 (w.extractLsb' 0 12))) ∧
    (w &&& 0xF000#16 = 0xC000#16 → decodeWord w = .ok (.rnd (w.extractLsb' 8 4) (w.extractLsb' 0 8))) ∧
    (w &&& 0xF000#16 = 0xD000#16 →
      decodeWord w = .ok (.drw (w.extractLsb' 8 4) (w.extractLsb' 4 4) (w.extractLsb' 0 4))) ∧
    (w &&& 0xF0FF#16 = 0xE09E#16 → decodeWord w = .ok (.skp (w.extractLsb' 8 4))) ∧
    (w &&& 0xF0FF#16 = 0xE0A1#16 → decodeWord w = .ok (.sknp (w.extractLsb' 8 4))) ∧
    (w &&& 0xF0FF#16 = 0xF007#16 → decodeWord w = .ok (.ldVxDT (w.extractLsb' 8 4))) ∧
    (w &&& 0xF0FF#16 = 0xF00A#16 → decodeWord w = .ok (.ldVxK (w.extractLsb' 8 4))) ∧
    (w &&& 0xF0FF#16 = 0xF015#16 → decodeWord w = .ok (.ldDTVx (w.extractLsb' 8 4))) ∧
    (w &&& 0xF0FF#16 = 0xF018#16 → decodeWord w = .ok (.ldSTVx (w.extractLsb' 8 4))) ∧
    (w &&& 0xF0FF#16 = 0xF01E#16 → decodeWord w = .ok (.addI (w.extractLsb' 8 4))) ∧
    (w &&& 0xF0FF#16 = 0xF029#16 → decodeWord w = .ok (.ldF (w.extractLsb' 8 4))) ∧
    (w &&& 0xF0FF#16 = 0xF033#16 → decodeWord w = .ok (.ldB (w.extractLsb' 8 4))) ∧
    (w &&& 0xF0FF#16 = 0xF055#16 → decodeWord w = .ok (.ldMemVx (w.extractLsb' 8 4))) ∧
    (w &&& 0xF0FF#16 = 0xF065#16 → decodeWord w = .ok (.ldVxMem (w.extractLsb' 8 4)))

/-- The words the decoder rejects are exactly the UNKNOWN class of R77, each rejected under its own name. Rests on D1, D3 (log
entry 14). -/
def Obligations.UnknownWordsAreTheListedOnes : Prop :=
  ∀ w : Word, decodeWord w = .error (.unknownOpcode w) ↔
    (w &&& 0xF000#16 = 0x5000#16 ∧ w &&& 0x000F#16 ≠ 0#16) ∨
    (w &&& 0xF000#16 = 0x8000#16 ∧ (w &&& 0x000F#16).toNat ∈ [0x8, 0x9, 0xA, 0xB, 0xC, 0xD, 0xF]) ∨
    (w &&& 0xF000#16 = 0x9000#16 ∧ w &&& 0x000F#16 ≠ 0#16) ∨
    (w &&& 0xF000#16 = 0xE000#16 ∧ (w &&& 0x00FF#16).toNat ∉ [0x9E, 0xA1]) ∨
    (w &&& 0xF000#16 = 0xF000#16 ∧
      (w &&& 0x00FF#16).toNat ∉ [0x07, 0x0A, 0x15, 0x18, 0x1E, 0x29, 0x33, 0x55, 0x65])

/-- One word of each family, as the spec's vectors write it, decodes to the instruction it stands for: 1EEE, 311B, 6A2F, 8014,
F21E, F155, D012, E29E, 00E0, 0123; and 8128 is unknown (40, 41, 42, 43, 44, 45, 95). Rests on D1 (log entry 14). -/
def Obligations.SampleWordsDecode : Prop :=
  decodeWord 0x1EEE#16 = .ok (.jp 0xEEE#12) ∧
  decodeWord 0x311B#16 = .ok (.seImm 0x1#4 0x1B#8) ∧
  decodeWord 0x6A2F#16 = .ok (.ldImm 0xA#4 0x2F#8) ∧
  decodeWord 0x8014#16 = .ok (.addReg 0x0#4 0x1#4) ∧
  decodeWord 0xF21E#16 = .ok (.addI 0x2#4) ∧
  decodeWord 0xF155#16 = .ok (.ldMemVx 0x1#4) ∧
  decodeWord 0xD012#16 = .ok (.drw 0x0#4 0x1#4 0x2#4) ∧
  decodeWord 0xE29E#16 = .ok (.skp 0x2#4) ∧
  decodeWord 0x00E0#16 = .ok .cls ∧
  decodeWord 0x0123#16 = .ok (.sys 0x123#12) ∧
  decodeWord 0x8128#16 = .error (.unknownOpcode 0x8128#16)

/-! ### The step (60_exceptions.md) -/

/-- When the two bytes at the pc decode to an instruction, a Running step is `exec` of it at that state (R200, R55). Nothing is
added around it: `exec` itself makes the fetch advance (log entry 25). -/
def Obligations.StepRunsDecodedInstruction : Prop :=
  ∀ (s : State) (hi lo : Byte) (i : Instr), s.status = .running →
    s.memRead s.pc.toNat = some hi → s.memRead (s.pc.toNat + 1) = some lo → decodeBytes [hi, lo] = .ok (i, []) →
    step s = exec i s

/-- An unknown word is a no-op with the normal advance (R191), and the step's result carries the advisory with the address and the
word (R206, the spec's decision D24). Which words are unknown rests on D3, and that the step runs a word the decoder
rejects by name on log entry 12. -/
def Obligations.UnknownWordIsNoOp : Prop :=
  ∀ (s : State) (w : Word), s.status = .running → s.fetch = some w → decodeWord w = .error (.unknownOpcode w) →
    step s = .next { s with pc := s.pc + 2#16 } ∧ stepReply s = .unknownOpcode s.pc w

/-- A fetch above 0xFFE is taken as an AddressingError: nothing changes but `status` and `fault`, the pc keeps the address (R55,
R207). Halted is the spec's decision D13; that the record then holds no word is the model's choice (log entry 6). -/
def Obligations.FetchErrorHalts : Prop :=
  ∀ s : State, s.status = .running → s.pc.toNat > 0xFFE →
    step s = .next { s with status := .halted, fault := some { kind := .addressingError, pc := s.pc, opcode := none } } ∧
      stepReply s = .fatal { kind := .addressingError, pc := s.pc, opcode := none }

/-- A step in Halted changes nothing and returns the recorded fault again (R201, the spec's decision D13). -/
def Obligations.HaltedStepChangesNothing : Prop :=
  ∀ (s : State) (f : FatalError), s.status = .halted → s.fault = some f → step s = .next s ∧ stepReply s = .fatal f

/-- A step in WaitingForKey: with no key pressed nothing changes; with some key pressed, the register the wait names takes the
number of a pressed key, `KEY_PRIORITY` of the flags, the engine is Running, and nothing else changes (R202; polling the
level and fetching nothing at the end are the spec's decision D12). Which pressed key it is is a free value (log entry 3);
that `wait_reg` keeps its value after the wait is the model's choice (log entry 7). -/
def Obligations.WaitingStepPollsKeypad : Prop :=
  ∀ s : State, s.status = .waitingForKey →
    ((∀ k : Fin 16, s.key[k] = false) → step s = .next s) ∧
    ((∃ k : Fin 16, s.key[k] = true) →
      ∃ (k : Fin 16) (t : State), s.key[k] = true ∧ keyPriority s.key = some k ∧ step s = .next t ∧
        t = { s with V := t.V, status := .running } ∧
        ∀ r, t.getV r = if r = s.waitReg then BitVec.ofNat 8 k.val else s.getV r)

/-- The whole list of error conditions: a Running step raises exactly under the conditions of R203, of that kind, and then leaves
Halted with the faulting instruction's address and word on record and in the result; otherwise it leaves the engine
not Halted and the record as it was (R203, R204, R205, R208). Rests on D6 and D13; the absent word of a fetch error is
log entry 6. -/
def Obligations.StepRaisesExactlyAsListed : Prop :=
  ∀ s : State, s.status = .running → ∃ t, step s = .next t ∧
    match s.raises with
    | some k =>
      t.status = .halted ∧ t.fault = some { kind := k, pc := s.pc, opcode := s.fetch } ∧
        stepReply s = .fatal { kind := k, pc := s.pc, opcode := s.fetch }
    | none => t.status ≠ .halted ∧ t.fault = s.fault

/-- A step always returns: from every state, reachable or not, it answers a next state (R200). That a fatal error is a next
state is the model's reading (log entry 9). -/
def Obligations.StepAlwaysAnswersNextState : Prop :=
  ∀ s : State, ∃ t, step s = .next t

/-- A jump to itself leaves the whole state unchanged (R235, the spec's convention D30 for the end of a program). -/
def Obligations.SelfJumpLeavesStateUnchanged : Prop :=
  ∀ (s : State) (nnn : Literal), s.status = .running → s.pc = nnn.setWidth 16 → s.fetch = some (encode (.jp nnn)) →
    step s = .next s ∧ stepReply s = .ok

/-! ### Invariants -/

/-- The reset state meets the invariant. -/
def Obligations.ResetMeetsInvariant : Prop := State.reset.Inv

/-- Every step keeps memory in its canonical form (R30, R51; the form is the model's, log entry 26). -/
def Obligations.StepKeepsMemoryForm : Prop :=
  ∀ s t : State, s.MemInv → step s = .next t → t.MemInv

/-- Every step keeps the pc at 0x10FE or below and every return address in use at 0x1000 or below: the largest values R23 derives.
Rests on D9 and D14. -/
def Obligations.StepKeepsFlowBounds : Prop :=
  ∀ s t : State, s.FlowInv → step s = .next t → t.FlowInv

/-- Every step keeps the fault record consistent: present exactly in Halted, its word absent exactly for a failed fetch (R33, R35,
R205). Rests on D13 and log entry 6. -/
def Obligations.StepKeepsFaultRecord : Prop :=
  ∀ s t : State, s.FaultInv → step s = .next t → t.FaultInv

/-- Every host event and every step keeps the invariant (R4, R40). Its bounds rest on the spec's decisions D9 and D14, its fault
record on D13 and log entry 6, its form of memory on log entry 26. -/
def Obligations.EventsKeepInvariant : Prop :=
  ∀ (σ τ : Session) (e : Event) (r : Reply), σ.machine.Inv → σ.event e = .next (τ, r) → τ.machine.Inv

/-- Under every schedule of the six events from the first Reset, with any program loaded, the invariant holds (R4, R234). Its
bounds rest on the spec's decisions D9 and D14, its fault record on D13 and log entry 6, its form of memory on log
entry 26, and which events have a meaning on log entry 13. -/
def Obligations.EveryScheduleKeepsInvariant : Prop :=
  ∀ (es : List Event) (τ : Session), Session.boot.run es = .next τ → τ.machine.Inv

/-! ### Control flow and SYS (40_control_flow.md, 45_sys_and_unknown.md) -/

/-- SYS does nothing but advance (R190, the spec's decision D2). -/
def Obligations.SysIsNoOp : Prop :=
  ∀ (nnn : Literal) (s : State), exec (.sys nnn) s = .next { s with pc := s.pc + 2#16 }

/-- JP sets the pc to the literal and changes nothing else (R101). -/
def Obligations.JumpSetsPc : Prop :=
  ∀ (nnn : Literal) (s : State),
    ∃ t, exec (.jp nnn) s = .next t ∧ t = { s with pc := t.pc } ∧ t.pc.toNat = nnn.toNat

/-- CALL below 16 entries pushes the address after itself, counts it and jumps; at 16 entries it raises StackOverflow with the
stack unchanged (R102). The pushed value is the spec's derivation (C13) and the overflow its decision D6. -/
def Obligations.CallPushesOrOverflows : Prop :=
  ∀ (nnn : Literal) (s : State),
    (s.sp.val < 16 →
      ∃ t, exec (.call nnn) s = .next t ∧ t = { s with pc := nnn.setWidth 16, stack := t.stack, sp := t.sp } ∧
        t.sp.val = s.sp.val + 1 ∧
        ∀ k : Fin 16, t.stack[k] = if k.val = s.sp.val then s.pc + 2#16 else s.stack[k]) ∧
    (s.sp.val = 16 →
      exec (.call nnn) s = .next
        { s with
          pc := s.pc + 2#16, status := .halted,
          fault := some { kind := .stackOverflow, pc := s.pc, opcode := some (encode (.call nnn)) } })

/-- RET on a stack in use takes its newest entry as the pc and counts it out; on an empty stack it raises StackUnderflow (R100).
The record's fields are the spec's decision D13; that the popped entry keeps its value, which nothing can read, is the
model's choice (log entry 8). -/
def Obligations.ReturnPopsOrUnderflows : Prop :=
  ∀ s : State,
    (s.sp.val ≠ 0 →
      ∃ t, exec .ret s = .next t ∧ t = { s with pc := t.pc, sp := t.sp } ∧ t.sp.val + 1 = s.sp.val ∧
        ∀ k : Fin 16, k.val + 1 = s.sp.val → t.pc = s.stack[k]) ∧
    (s.sp.val = 0 →
      exec .ret s = .next
        { s with
          pc := s.pc + 2#16, status := .halted,
          fault := some { kind := .stackUnderflow, pc := s.pc, opcode := some (encode .ret) } })

/-- A CALL and the RET that follows it restore the pc to the address after the CALL and the stack count, and change nothing else
but the entry that is no longer in use (R100, R102, S3, C13). -/
def Obligations.CallReturnRoundTrip : Prop :=
  ∀ (nnn : Literal) (s : State), s.sp.val < 16 →
    ∃ t u, exec (.call nnn) s = .next t ∧ exec .ret t = .next u ∧ u = { s with pc := s.pc + 2#16, stack := u.stack } ∧
      ∀ k : Fin 16, k.val ≠ s.sp.val → u.stack[k] = s.stack[k]

/-- JP V0 sets the pc to the literal plus V0, unreduced (R103; not taken modulo 4096 by the spec's decision D9). -/
def Obligations.OffsetJumpIsUnreduced : Prop :=
  ∀ (nnn : Literal) (s : State),
    ∃ t, exec (.jpV0 nnn) s = .next t ∧ t = { s with pc := t.pc } ∧ t.pc.toNat = nnn.toNat + (s.getV 0x0#4).toNat

/-- The four register skips: net +4 from the instruction's own address when the condition holds, else +2, nothing else changed
(R104 to R107). -/
def Obligations.SkipsAdvanceByCondition : Prop :=
  ∀ (x y : Nibble) (kk : Byte) (s : State),
    exec (.seImm x kk) s = .next { s with pc := if s.getV x = kk then s.pc + 4#16 else s.pc + 2#16 } ∧
    exec (.sneImm x kk) s = .next { s with pc := if s.getV x ≠ kk then s.pc + 4#16 else s.pc + 2#16 } ∧
    exec (.seReg x y) s = .next { s with pc := if s.getV x = s.getV y then s.pc + 4#16 else s.pc + 2#16 } ∧
    exec (.sneReg x y) s = .next { s with pc := if s.getV x ≠ s.getV y then s.pc + 4#16 else s.pc + 2#16 }

/-! ### Load, arithmetic, logic, shift, random (41_load_arithmetic_logic.md) -/

/-- LD Vx, kk and LD Vx, Vy write Vx and nothing else (R120, R122). -/
def Obligations.LoadsWriteOneRegister : Prop :=
  ∀ (x y : Nibble) (kk : Byte) (s : State),
    WritesRegister (.ldImm x kk) s x kk ∧ WritesRegister (.ldReg x y) s x (s.getV y)

/-- ADD Vx, kk wraps modulo 256 and touches no flag (R121). -/
def Obligations.AddImmediateWrapsWithoutFlag : Prop :=
  ∀ (x : Nibble) (kk : Byte) (s : State),
    WritesRegister (.addImm x kk) s x (BitVec.ofNat 8 (((s.getV x).toNat + kk.toNat) % 256))

/-- OR, AND and XOR write Vx bit by bit and nothing else; VF is untouched unless it is Vx (R124, R125, R126; VF untouched is the
spec's reading D17). -/
def Obligations.LogicLeavesFlagAlone : Prop :=
  ∀ (x y : Nibble) (s : State),
    WritesRegister (.orReg x y) s x (s.getV x ||| s.getV y) ∧
    WritesRegister (.andReg x y) s x (s.getV x &&& s.getV y) ∧
    WritesRegister (.xorReg x y) s x (s.getV x ^^^ s.getV y)

/-- ADD Vx, Vy: VF is the carry out of the sum, Vx the sum modulo 256; at x = 15 the sum stays, by the spec's order D8 (R127, R13). -/
def Obligations.AddSetsCarry : Prop :=
  ∀ (x y : Nibble) (s : State),
    WritesFlagAndRegister (.addReg x y) s x
      (if (s.getV x).toNat + (s.getV y).toNat > 255 then 1#8 else 0#8)
      (BitVec.ofNat 8 (((s.getV x).toNat + (s.getV y).toNat) % 256))

/-- SUB and SUBN: VF is 1 exactly when the minuend is strictly greater, Vx the difference modulo 256; at x = 15 the difference
stays, by the spec's order D8 (R128, R129, C2). -/
def Obligations.SubtractionsSetStrictFlag : Prop :=
  ∀ (x y : Nibble) (s : State),
    WritesFlagAndRegister (.sub x y) s x
      (if (s.getV x).toNat > (s.getV y).toNat then 1#8 else 0#8)
      (BitVec.ofNat 8 ((256 + (s.getV x).toNat - (s.getV y).toNat) % 256)) ∧
    WritesFlagAndRegister (.subn x y) s x
      (if (s.getV y).toNat > (s.getV x).toNat then 1#8 else 0#8)
      (BitVec.ofNat 8 ((256 + (s.getV y).toNat - (s.getV x).toNat) % 256))

/-- SHR and SHL move Vx by one bit with a zero coming in, VF the bit shifted out, whatever the field y; at x = 15 the shifted
value stays, by the spec's order D8 (R130, R131). -/
def Obligations.ShiftsMoveVxByOne : Prop :=
  ∀ (x y : Nibble) (s : State),
    WritesFlagAndRegister (.shr x y) s x
      (BitVec.ofNat 8 ((s.getV x).toNat % 2)) (BitVec.ofNat 8 ((s.getV x).toNat / 2)) ∧
    WritesFlagAndRegister (.shl x y) s x
      (BitVec.ofNat 8 ((s.getV x).toNat / 128)) (BitVec.ofNat 8 (2 * (s.getV x).toNat % 256))

/-- RND writes Vx with the free byte drawn ANDed with the mask, so no bit outside the mask, and nothing else but the model's own
counter of draws (R132, R12). The byte is a free value (log entry 4): this holds for every byte. -/
def Obligations.RandomIsMaskedDraw : Prop :=
  ∀ (x : Nibble) (kk : Byte) (s : State),
    ∃ t, exec (.rnd x kk) s = .next t ∧ t = { s with pc := s.pc + 2#16, V := t.V, draws := s.draws + 1 } ∧
      (∀ r, t.getV r = if r = x then Config.rand s.draws &&& kk else s.getV r) ∧ t.getV x &&& ~~~kk = 0#8

/-! ### Index register and memory (42_index_and_memory.md) -/

/-- LD I, nnn loads the literal zero-extended and changes nothing else (R140). -/
def Obligations.SetIndexLoadsLiteral : Prop :=
  ∀ (nnn : Literal) (s : State),
    ∃ t, exec (.ldI nnn) s = .next t ∧ t = { s with pc := s.pc + 2#16, I := t.I } ∧ t.I.toNat = nnn.toNat

/-- ADD I, Vx wraps modulo 65536 and touches no flag; LD F, Vx loads FONT_BASE + 5 Vx with Vx whole, at most 0x6AB (R141, R142). The
wrap is the spec's D10, the missing mask its D29; FONT_BASE is a free value (log entry 1). -/
def Obligations.IndexArithmetic : Prop :=
  ∀ (x : Nibble) (s : State),
    (∃ t, exec (.addI x) s = .next t ∧ t = { s with pc := s.pc + 2#16, I := t.I } ∧
      t.I.toNat = (s.I.toNat + (s.getV x).toNat) % 65536) ∧
    (∃ t, exec (.ldF x) s = .next t ∧ t = { s with pc := s.pc + 2#16, I := t.I } ∧
      t.I.toNat = Config.fontBase.val + 5 * (s.getV x).toNat ∧ t.I.toNat ≤ 0x6AB)

/-- LD B, Vx with its three bytes in bounds stores hundreds, tens and ones at I, I+1, I+2; every other byte of memory, `I` and all
else is as before (R143, R144). -/
def Obligations.BcdStoresThreeDigits : Prop :=
  ∀ (x : Nibble) (s : State), s.MemInv → s.I.toNat + 2 ≤ 0xFFF →
    StoresAtI (.ldB x) s
      [BitVec.ofNat 8 ((s.getV x).toNat / 100), BitVec.ofNat 8 ((s.getV x).toNat / 10 % 10),
        BitVec.ofNat 8 ((s.getV x).toNat % 10)]

/-- LD [I], Vx with its range in bounds stores V0 up to and including Vx at I up; every other byte of memory, `I` and all else is
as before (R146, R144). -/
def Obligations.RangeStoreWritesRegisters : Prop :=
  ∀ (x : Nibble) (s : State), s.MemInv → s.I.toNat + x.toNat ≤ 0xFFF →
    StoresAtI (.ldMemVx x) s ((List.range (x.toNat + 1)).map fun k => s.getV (BitVec.ofNat 4 k))

/-- LD Vx, [I] with its range in bounds loads V0 up to and including Vx from I up; every other register, memory, `I` and all else
is as before (R147, R144). -/
def Obligations.RangeLoadReadsMemory : Prop :=
  ∀ (x : Nibble) (s : State), s.I.toNat + x.toNat ≤ 0xFFF →
    ∃ t, exec (.ldVxMem x) s = .next t ∧ t = { s with pc := s.pc + 2#16, V := t.V } ∧
      ∀ r : Nibble,
        (r.toNat ≤ x.toNat → s.memRead (s.I.toNat + r.toNat) = some (t.getV r)) ∧
        (x.toNat < r.toNat → t.getV r = s.getV r)

/-- LD B and LD [I] with a byte out of bounds raise AddressingError, whole, each in-bounds byte of the range old or new (R143,
R146, R145, R59, R207; the spec's decision D13). Which of the two is a free value (log entry 5). -/
def Obligations.OutOfRangeStoresFault : Prop :=
  ∀ (x : Nibble) (s : State), s.MemInv →
    (s.I.toNat + 2 > 0xFFF →
      StoreFaultsAtI (.ldB x) s
        [BitVec.ofNat 8 ((s.getV x).toNat / 100), BitVec.ofNat 8 ((s.getV x).toNat / 10 % 10),
          BitVec.ofNat 8 ((s.getV x).toNat % 10)]) ∧
    (s.I.toNat + x.toNat > 0xFFF →
      StoreFaultsAtI (.ldMemVx x) s ((List.range (x.toNat + 1)).map fun k => s.getV (BitVec.ofNat 4 k)))

/-- LD Vx, [I] with a byte out of bounds raises AddressingError, each register of the range whose byte is in bounds old or
loaded, every other register old, nothing else changed but the advance, `status`, `fault` and the model's own counter;
DRW with a row out of bounds raises with the framebuffer and VF unchanged (R147, R161, R59, R207; the spec's D13, D15).
Which registers are loaded is a free value (log entry 5). -/
def Obligations.OutOfRangeReadsFault : Prop :=
  ∀ (x y n : Nibble) (s : State),
    (s.I.toNat + x.toNat > 0xFFF →
      ∃ t, exec (.ldVxMem x) s = .next t ∧
        t = { s with
          pc := s.pc + 2#16, V := t.V, draws := t.draws, status := .halted,
          fault := some { kind := .addressingError, pc := s.pc, opcode := some (encode (.ldVxMem x)) } } ∧
        ∀ r : Nibble, t.getV r = s.getV r ∨
          (r.toNat ≤ x.toNat ∧ s.memRead (s.I.toNat + r.toNat) = some (t.getV r))) ∧
    (1 ≤ n.toNat → s.I.toNat + n.toNat - 1 > 0xFFF →
      exec (.drw x y n) s = .next
        { s with
          pc := s.pc + 2#16, status := .halted,
          fault := some { kind := .addressingError, pc := s.pc, opcode := some (encode (.drw x y n)) } })

/-- What is stored is what is read, at every address, so a stored byte is seen by the next fetch of it (R51, R63, R66). -/
def Obligations.StoredByteIsReadBack : Prop :=
  ∀ (s : State) (a : Nat) (v : Byte), s.MemInv →
    (a ≤ 0xFFF → ∃ t, s.memWrite a v = some t ∧ t = { s with mem := t.mem } ∧ t.MemInv ∧
      ∀ b, t.memRead b = if b = a then some v else s.memRead b) ∧
    (a > 0xFFF → s.memWrite a v = none)

/-- Self-modifying code: two registers stored over the next instruction are the word the next step fetches (R66, the spec's
decision D26). -/
def Obligations.StoreIsSeenByNextFetch : Prop :=
  ∀ (x : Nibble) (s : State), s.MemInv → 1 ≤ x.toNat → s.I.toNat = s.pc.toNat + 2 → s.I.toNat + x.toNat ≤ 0xFFF →
    ∃ t, exec (.ldMemVx x) s = .next t ∧ t.fetch = some (s.getV 0x0#4 ++ s.getV 0x1#4)

/-! ### Graphics (43_graphics.md) -/

/-- CLS turns every pixel off and changes nothing else (R160). -/
def Obligations.ClearTurnsEveryPixelOff : Prop :=
  ∀ s : State, ∃ t, exec .cls s = .next t ∧ t = { s with pc := s.pc + 2#16, fb := t.fb } ∧
    ∀ (x y : Nat) (hx : x < 64) (hy : y < 32), t.fb[y][x] = false

/-- DRW with its rows in bounds (or none) XORs each sprite bit into its pixel, at the unreduced anchor, clipped at the edges; VF
is 1 exactly when a bit landed on a pixel that was on; nothing else changes (R161). Bit 7 leftmost is D5, reading all
rows first and unbounded sums D15, the old VF as an anchor R13 and D8. -/
def Obligations.DrawXorsClippedSprite : Prop :=
  ∀ (x y n : Nibble) (s : State), n.toNat = 0 ∨ s.I.toNat + n.toNat - 1 ≤ 0xFFF →
    ∃ t, exec (.drw x y n) s = .next t ∧ t = { s with pc := s.pc + 2#16, V := t.V, fb := t.fb } ∧
      (∀ (px py : Nat) (hx : px < 64) (hy : py < 32),
        t.fb[py][px] =
          (s.fb[py][px] ^^ spriteBit (s.bytesAtI n.toNat) (s.getV x).toNat (s.getV y).toNat px py)) ∧
      (t.getV 0xF#4 = 1#8 ∨ t.getV 0xF#4 = 0#8) ∧
      (t.getV 0xF#4 = 1#8 ↔
        ∃ (px py : Nat) (hx : px < 64) (hy : py < 32),
          spriteBit (s.bytesAtI n.toNat) (s.getV x).toNat (s.getV y).toNat px py = true ∧ s.fb[py][px] = true) ∧
      ∀ r, r ≠ 0xF#4 → t.getV r = s.getV r

/-- Drawing the same sprite at the same anchor twice restores the framebuffer. The second draw sets VF exactly when an unclipped
sprite bit covers a pixel that was off before the first: so, where the first draw left VF 0, exactly when the sprite has
an unclipped bit set, which R162 (a) says without that condition (log entry 27). -/
def Obligations.DrawTwiceRestoresFramebuffer : Prop :=
  ∀ (x y n : Nibble) (s t u : State), n.toNat = 0 ∨ s.I.toNat + n.toNat - 1 ≤ 0xFFF →
    exec (.drw x y n) s = .next t → t.getV x = s.getV x → t.getV y = s.getV y → exec (.drw x y n) t = .next u →
    u.fb = s.fb ∧
      (u.getV 0xF#4 = 1#8 ↔
        ∃ px py : Nat, px < 64 ∧ py < 32 ∧ s.fb.pixel px py = false ∧
          spriteBit (s.bytesAtI n.toNat) (s.getV x).toNat (s.getV y).toNat px py = true) ∧
      (t.getV 0xF#4 = 0#8 →
        (u.getV 0xF#4 = 1#8 ↔
          ∃ px py : Nat, px < 64 ∧ py < 32 ∧
            spriteBit (s.bytesAtI n.toNat) (s.getV x).toNat (s.getV y).toNat px py = true))

/-- A DRW changes no pixel outside the columns vx to vx+7 and the rows vy to vy+n-1 (R162 (b)). -/
def Obligations.DrawStaysInItsRectangle : Prop :=
  ∀ (x y n : Nibble) (s t : State) (px py : Nat), exec (.drw x y n) s = .next t → t.fb.pixel px py ≠ s.fb.pixel px py →
    (s.getV x).toNat ≤ px ∧ px ≤ (s.getV x).toNat + 7 ∧ (s.getV y).toNat ≤ py ∧ py < (s.getV y).toNat + n.toNat ∧
      px < 64 ∧ py < 32

/-! ### Keypad and timers (44_keypad_and_timers.md, 60_exceptions.md) -/

/-- SKP and SKNP skip on the flag of the key whose number is the low nibble of Vx (R170, R171; the low nibble is the spec's
decision D11). -/
def Obligations.KeySkipsTestSelectedKey : Prop :=
  ∀ (x : Nibble) (s : State) (k : Fin 16), k.val = (s.getV x).toNat % 16 →
    exec (.skp x) s = .next { s with pc := if s.key[k] = true then s.pc + 4#16 else s.pc + 2#16 } ∧
    exec (.sknp x) s = .next { s with pc := if s.key[k] = false then s.pc + 4#16 else s.pc + 2#16 }

/-- LD Vx, K starts the wait, with the pc after the instruction; a poll that finds exactly one key pressed loads its number into
Vx, ends the wait, and fetches nothing (R172, R202; the polling points are the spec's decision D12). That `wait_reg` keeps
its value after the wait is the model's choice (log entry 7). -/
def Obligations.KeyWaitLoadsPressedKey : Prop :=
  ∀ (x : Nibble) (s : State),
    exec (.ldVxK x) s = .next { s with pc := s.pc + 2#16, waitReg := x, status := .waitingForKey } ∧
    ∀ (t : State) (k : Fin 16), t.status = .waitingForKey → t.waitReg = x → (∀ j : Fin 16, t.key[j] = true ↔ j = k) →
      ∃ u, step t = .next u ∧ u = { t with V := u.V, status := .running } ∧
        ∀ r, u.getV r = if r = x then BitVec.ofNat 8 k.val else t.getV r

/-- The timer copies: LD Vx, DT writes Vx; LD DT, Vx and LD ST, Vx write the timer; nothing else changes (R173, R174, R175). -/
def Obligations.TimerCopies : Prop :=
  ∀ (x : Nibble) (s : State),
    WritesRegister (.ldVxDT x) s x s.DT ∧
    exec (.ldDTVx x) s = .next { s with pc := s.pc + 2#16, DT := s.getV x } ∧
    exec (.ldSTVx x) s = .next { s with pc := s.pc + 2#16, ST := s.getV x }

/-- n timer ticks take n off each timer and hold it at 0, in every status, and change nothing else (R215; in every status is the
spec's decision D22). -/
def Obligations.TicksCountDownToZero : Prop :=
  ∀ (n : Nat) (s : State),
    (State.timerTick^[n] s) = { s with DT := (State.timerTick^[n] s).DT, ST := (State.timerTick^[n] s).ST } ∧
      (State.timerTick^[n] s).DT.toNat = s.DT.toNat - n ∧ (State.timerTick^[n] s).ST.toNat = s.ST.toNat - n

/-- SetKey writes one flag and nothing else, in every status (R218; that only codes 0 to 15 exist is the spec's decision D23). -/
def Obligations.SetKeyWritesOneFlag : Prop :=
  ∀ (code : Nibble) (pressed : Bool) (σ : Session),
    ∃ τ, σ.event (.setKey code pressed) = .next (τ, .ok) ∧
      τ = { σ with machine := { σ.machine with key := τ.machine.key } } ∧
      ∀ k : Fin 16, τ.machine.key[k] = if k.val = code.toNat then pressed else σ.machine.key[k]

/-- ReadDisplay returns the pixels as they stand and changes nothing (R220). -/
def Obligations.ReadDisplayChangesNothing : Prop :=
  ∀ σ : Session, σ.event .readDisplay = .next (σ, .display σ.machine.fb)

/-! ### Whole-machine rules (10_state.md) -/

/-- What an instruction writes, by the access matrix (R39): each piece of state changes only under the instructions listed for it,
the key flags under none; without a W for the pc an instruction leaves it at the fetch advance; one that raises writes
`status` and `fault` too. Where R39 gives RET a W for the stack, what RET writes is `sp`: that the popped entry keeps its
value is the model's choice (log entry 8). The model's own counter moves only for RND and for a range instruction that
raises (log entries 4, 5). -/
def Obligations.AccessMatrixHolds : Prop :=
  ∀ (i : Instr) (s t : State), exec i s = .next t →
    t.key = s.key ∧
    (t.V ≠ s.V → writesV i = true) ∧
    (t.fault = s.fault ∧ (t.status ≠ s.status → ∃ x, i = .ldVxK x) ∨ t.status = .halted ∧ t.fault.isSome) ∧
    (t.mem ≠ s.mem → (∃ x, i = .ldB x) ∨ ∃ x, i = .ldMemVx x) ∧
    (t.fb ≠ s.fb → i = .cls ∨ ∃ x y n, i = .drw x y n) ∧
    (t.DT ≠ s.DT → ∃ x, i = .ldDTVx x) ∧
    (t.ST ≠ s.ST → ∃ x, i = .ldSTVx x) ∧
    (t.I ≠ s.I → (∃ nnn, i = .ldI nnn) ∨ (∃ x, i = .addI x) ∨ ∃ x, i = .ldF x) ∧
    (t.pc ≠ s.pc + 2#16 → writesPc i = true) ∧
    (t.sp ≠ s.sp → i = .ret ∨ ∃ nnn, i = .call nnn) ∧
    (t.stack ≠ s.stack → ∃ nnn, i = .call nnn) ∧
    (t.waitReg ≠ s.waitReg → ∃ x, i = .ldVxK x) ∧
    (t.draws ≠ s.draws →
      (∃ x kk, i = .rnd x kk) ∨
        t.status = .halted ∧ ((∃ x, i = .ldB x) ∨ (∃ x, i = .ldMemVx x) ∨ ∃ x, i = .ldVxMem x))

/-- VF changes only under the six flag writers or an instruction whose destination it is: x = 15 of a register writer, or the
range load up to V15 (R21). -/
def Obligations.FlagHasOnlyListedWriters : Prop :=
  ∀ (i : Instr) (s t : State), exec i s = .next t → t.getV 0xF#4 ≠ s.getV 0xF#4 →
    (∃ x y, i = .addReg x y ∨ i = .sub x y ∨ i = .shr x y ∨ i = .subn x y ∨ i = .shl x y) ∨
    (∃ x y n, i = .drw x y n) ∨
    (∃ kk, i = .ldImm 0xF#4 kk ∨ i = .addImm 0xF#4 kk ∨ i = .rnd 0xF#4 kk) ∨
    (∃ y, i = .ldReg 0xF#4 y ∨ i = .orReg 0xF#4 y ∨ i = .andReg 0xF#4 y ∨ i = .xorReg 0xF#4 y) ∨
    i = .ldVxDT 0xF#4 ∨ i = .ldVxMem 0xF#4

/-- The sound timer is invisible to the program: no step reads it, so two states that differ in ST alone step to states that
differ in ST alone (R27). -/
def Obligations.SoundTimerIsNeverRead : Prop :=
  ∀ (s t : State) (b : Byte), step s = .next t → ∃ c, step { s with ST := b } = .next { t with ST := c }

/-- Stack entries at or above `sp` are unobservable: two states that differ only there step to states that differ only there
(R25, U9). So the values log entry 8 chooses for them touch nothing else. -/
def Obligations.UnusedStackEntriesAreInvisible : Prop :=
  ∀ (s t : State) (st : Vector Word 16), (∀ k : Fin 16, k.val < s.sp.val → st[k] = s.stack[k]) → step s = .next t →
    ∃ st' : Vector Word 16, step { s with stack := st } = .next { t with stack := st' } ∧
      ∀ k : Fin 16, k.val < t.sp.val → st'[k] = t.stack[k]

/-- `wait_reg` is read only by a waiting step: outside WaitingForKey its value touches nothing else (R34, U9). So the reset value
log entry 7 chooses touches nothing else. -/
def Obligations.WaitRegisterIsInvisibleUnlessWaiting : Prop :=
  ∀ (s t : State) (r : Nibble), s.status ≠ .waitingForKey → step s = .next t →
    ∃ r', step { s with waitReg := r } = .next { t with waitReg := r' } ∧ (t.status = .waitingForKey → r' = t.waitReg)

/-- A fatal error is final: under every event but Reset a Halted machine stays Halted with the same record, and of the spec's
state only the timers, the keys and, under a first Load, memory can change (R209, R201; the spec's decisions D13, D22). -/
def Obligations.HaltIsLeftOnlyByReset : Prop :=
  ∀ (σ τ : Session) (e : Event) (r : Reply), σ.machine.status = .halted → e ≠ .reset → σ.event e = .next (τ, r) →
    τ.machine =
      { σ.machine with DT := τ.machine.DT, ST := τ.machine.ST, key := τ.machine.key, mem := τ.machine.mem } ∧
    ((∀ bs, e ≠ .load bs) → τ.machine.mem = σ.machine.mem)

/-! ### Reset and load (70_reset_and_hazards.md) -/

/-- After Reset every piece of state has the value of R38: registers, I, timers, keys and pixels zero, the stack empty, pc 0x200,
Running, no fault, memory the font at FONT_BASE and zero elsewhere. `wait_reg` and unused stack entries are not
stated; FONT_BASE and FONT_DATA are free values (log entries 1, 2). Reset may be applied at any time (D31). -/
def Obligations.ResetGivesBootState : Prop :=
  ∀ (σ : Session), ∃ τ, σ.event .reset = .next (τ, .ok) ∧
    (∀ r, τ.machine.getV r = 0#8) ∧ τ.machine.I = 0#16 ∧ τ.machine.pc = 0x200#16 ∧ τ.machine.sp.val = 0 ∧
    τ.machine.DT = 0#8 ∧ τ.machine.ST = 0#8 ∧
    (∀ (x y : Nat) (hx : x < 64) (hy : y < 32), τ.machine.fb[y][x] = false) ∧
    (∀ k : Fin 16, τ.machine.key[k] = false) ∧ τ.machine.status = .running ∧ τ.machine.fault = none ∧
    (∀ k : Fin 80, τ.machine.memRead (Config.fontBase.val + k.val) = some Config.fontData[k]) ∧
    (∀ a, a ≤ 0xFFF → (a < Config.fontBase.val ∨ Config.fontBase.val + 80 ≤ a) → τ.machine.memRead a = some 0#8) ∧
    (∀ a, a > 0xFFF → τ.machine.memRead a = none)

/-- Load on a freshly reset machine: a program of at most 0xE00 bytes lands at 0x200 up, nothing else changes, and the machine is no
longer fresh; a longer one is an AddressingError and writes nothing; any other Load, and a Step after a failed one, is
given no meaning. A Step ends the fresh phase, Reset alone begins it again, and every other event keeps it (R232, R233,
R242; the spec's decision D19; the phases are the model's, log entry 13). -/
def Obligations.LoadPlacesProgramOnce : Prop :=
  ∀ (bs : List Byte) (σ : Session), σ.machine.MemInv →
    (σ.phase = .fresh → bs.length ≤ 0xE00 →
      ∃ τ, σ.event (.load bs) = .next (τ, .ok) ∧ τ.phase = .loaded ∧
        τ.machine = { σ.machine with mem := τ.machine.mem } ∧
        ∀ a, τ.machine.memRead a =
          if 0x200 ≤ a ∧ a < 0x200 + bs.length then some (bs.getD (a - 0x200) 0) else σ.machine.memRead a) ∧
    (σ.phase = .fresh → bs.length > 0xE00 →
      σ.event (.load bs) = .next ({ σ with phase := .loadFailed }, .programTooLarge)) ∧
    (σ.phase ≠ .fresh → σ.event (.load bs) = .refused .loadNotFresh) ∧
    (σ.phase = .loadFailed → σ.event .step = .refused .stepAfterFailedLoad) ∧
    (σ.phase ≠ .loadFailed →
      ∃ τ, σ.event .step = .next (τ, stepReply σ.machine) ∧ τ.phase = .stepped ∧ step σ.machine = .next τ.machine) ∧
    (∃ τ, σ.event .reset = .next (τ, .ok) ∧ τ.phase = .fresh) ∧
    ∀ (e : Event) (τ : Session) (r : Reply), e ≠ .reset → e ≠ .step → (∀ cs, e ≠ .load cs) → σ.event e = .next (τ, r) →
      τ.phase = σ.phase
end

