-- ==== Sys2Proof/Laws/Decode.lean ====
section
/-! SUPPORT. Laws/Decode.lean: the fields of a word built from fields, and a word built from its own fields
(30_encoding.md R71, R72). -/

namespace Sys2Proof

/-! ### Fields and encodings as numbers -/

theorem toNat_append_mul {m n : Nat} (a : BitVec m) (b : BitVec n) : (a ++ b).toNat = a.toNat * 2 ^ n + b.toNat := by
  rw [BitVec.toNat_append, ← Nat.shiftLeft_add_eq_or_of_lt b.isLt, Nat.shiftLeft_eq]

theorem fieldHi_toNat (w : Word) : (fieldHi w).toNat = w.toNat / 4096 % 16 := by
  simp [fieldHi, BitVec.extractLsb'_toNat, Nat.shiftRight_eq_div_pow]

theorem fieldX_toNat (w : Word) : (fieldX w).toNat = w.toNat / 256 % 16 := by
  simp [fieldX, BitVec.extractLsb'_toNat, Nat.shiftRight_eq_div_pow]

theorem fieldY_toNat (w : Word) : (fieldY w).toNat = w.toNat / 16 % 16 := by
  simp [fieldY, BitVec.extractLsb'_toNat, Nat.shiftRight_eq_div_pow]

theorem fieldN_toNat (w : Word) : (fieldN w).toNat = w.toNat % 16 := by
  simp [fieldN, BitVec.extractLsb'_toNat]

theorem fieldKK_toNat (w : Word) : (fieldKK w).toNat = w.toNat % 256 := by
  simp [fieldKK, BitVec.extractLsb'_toNat]

theorem fieldNNN_toNat (w : Word) : (fieldNNN w).toNat = w.toNat % 4096 := by
  simp [fieldNNN, BitVec.extractLsb'_toNat]

theorem highByte_toNat (w : Word) : (highByte w).toNat = w.toNat / 256 % 256 := by
  simp [highByte, BitVec.extractLsb'_toNat, Nat.shiftRight_eq_div_pow]

theorem lowByte_toNat (w : Word) : (lowByte w).toNat = w.toNat % 256 := by
  simp [lowByte, BitVec.extractLsb'_toNat]

theorem wordOfBytes_toNat (hi lo : Byte) : (wordOfBytes hi lo).toNat = hi.toNat * 256 + lo.toNat :=
  toNat_append_mul hi lo

theorem encodeNNN_toNat (hi : Nibble) (nnn : Literal) : (encodeNNN hi nnn).toNat = hi.toNat * 4096 + nnn.toNat := by
  have h : (encodeNNN hi nnn).toNat = hi.toNat * 2 ^ 12 + nnn.toNat := by rw [← toNat_append_mul hi nnn]; rfl
  rw [h, show (2 : Nat) ^ 12 = 4096 from by norm_num]

theorem encodeXKK_toNat (hi x : Nibble) (kk : Byte) :
    (encodeXKK hi x kk).toNat = hi.toNat * 4096 + x.toNat * 256 + kk.toNat := by
  have h : (encodeXKK hi x kk).toNat = (hi.toNat * 2 ^ 4 + x.toNat) * 2 ^ 8 + kk.toNat := by
    rw [← toNat_append_mul hi x, ← toNat_append_mul (hi ++ x) kk]; rfl
  rw [h]; ring

theorem encodeXYN_toNat (hi x y n : Nibble) :
    (encodeXYN hi x y n).toNat = hi.toNat * 4096 + x.toNat * 256 + y.toNat * 16 + n.toNat := by
  have h : (encodeXYN hi x y n).toNat = ((hi.toNat * 2 ^ 4 + x.toNat) * 2 ^ 4 + y.toNat) * 2 ^ 4 + n.toNat := by
    rw [← toNat_append_mul hi x, ← toNat_append_mul (hi ++ x) y, ← toNat_append_mul (hi ++ x ++ y) n]; rfl
  omega

/-! ### The fields of an encoded word -/

@[simp] theorem fieldHi_encodeNNN (hi : Nibble) (nnn : Literal) : fieldHi (encodeNNN hi nnn) = hi := by
  apply BitVec.eq_of_toNat_eq
  have := fieldHi_toNat (encodeNNN hi nnn)
  have := encodeNNN_toNat hi nnn
  have := hi.isLt
  have := nnn.isLt
  omega

@[simp] theorem fieldNNN_encodeNNN (hi : Nibble) (nnn : Literal) : fieldNNN (encodeNNN hi nnn) = nnn := by
  apply BitVec.eq_of_toNat_eq
  have := fieldNNN_toNat (encodeNNN hi nnn)
  have := encodeNNN_toNat hi nnn
  have := hi.isLt
  have := nnn.isLt
  omega

@[simp] theorem fieldHi_encodeXKK (hi x : Nibble) (kk : Byte) : fieldHi (encodeXKK hi x kk) = hi := by
  apply BitVec.eq_of_toNat_eq
  have := fieldHi_toNat (encodeXKK hi x kk)
  have := encodeXKK_toNat hi x kk
  have := hi.isLt
  have := x.isLt
  have := kk.isLt
  omega

@[simp] theorem fieldX_encodeXKK (hi x : Nibble) (kk : Byte) : fieldX (encodeXKK hi x kk) = x := by
  apply BitVec.eq_of_toNat_eq
  have := fieldX_toNat (encodeXKK hi x kk)
  have := encodeXKK_toNat hi x kk
  have := hi.isLt
  have := x.isLt
  have := kk.isLt
  omega

@[simp] theorem fieldKK_encodeXKK (hi x : Nibble) (kk : Byte) : fieldKK (encodeXKK hi x kk) = kk := by
  apply BitVec.eq_of_toNat_eq
  have := fieldKK_toNat (encodeXKK hi x kk)
  have := encodeXKK_toNat hi x kk
  have := hi.isLt
  have := x.isLt
  have := kk.isLt
  omega

@[simp] theorem fieldHi_encodeXYN (hi x y n : Nibble) : fieldHi (encodeXYN hi x y n) = hi := by
  apply BitVec.eq_of_toNat_eq
  have := fieldHi_toNat (encodeXYN hi x y n)
  have := encodeXYN_toNat hi x y n
  have := hi.isLt
  have := x.isLt
  have := y.isLt
  have := n.isLt
  omega

@[simp] theorem fieldX_encodeXYN (hi x y n : Nibble) : fieldX (encodeXYN hi x y n) = x := by
  apply BitVec.eq_of_toNat_eq
  have := fieldX_toNat (encodeXYN hi x y n)
  have := encodeXYN_toNat hi x y n
  have := hi.isLt
  have := x.isLt
  have := y.isLt
  have := n.isLt
  omega

@[simp] theorem fieldY_encodeXYN (hi x y n : Nibble) : fieldY (encodeXYN hi x y n) = y := by
  apply BitVec.eq_of_toNat_eq
  have := fieldY_toNat (encodeXYN hi x y n)
  have := encodeXYN_toNat hi x y n
  have := hi.isLt
  have := x.isLt
  have := y.isLt
  have := n.isLt
  omega

@[simp] theorem fieldN_encodeXYN (hi x y n : Nibble) : fieldN (encodeXYN hi x y n) = n := by
  apply BitVec.eq_of_toNat_eq
  have := fieldN_toNat (encodeXYN hi x y n)
  have := encodeXYN_toNat hi x y n
  have := hi.isLt
  have := x.isLt
  have := y.isLt
  have := n.isLt
  omega

/-! ### A word from its own fields -/

@[simp] theorem encodeNNN_fields (w : Word) : encodeNNN (fieldHi w) (fieldNNN w) = w := by
  apply BitVec.eq_of_toNat_eq
  have := encodeNNN_toNat (fieldHi w) (fieldNNN w)
  have := fieldHi_toNat w
  have := fieldNNN_toNat w
  have := w.isLt
  omega

@[simp] theorem encodeXKK_fields (w : Word) : encodeXKK (fieldHi w) (fieldX w) (fieldKK w) = w := by
  apply BitVec.eq_of_toNat_eq
  have := encodeXKK_toNat (fieldHi w) (fieldX w) (fieldKK w)
  have := fieldHi_toNat w
  have := fieldX_toNat w
  have := fieldKK_toNat w
  have := w.isLt
  omega

@[simp] theorem encodeXYN_fields (w : Word) : encodeXYN (fieldHi w) (fieldX w) (fieldY w) (fieldN w) = w := by
  apply BitVec.eq_of_toNat_eq
  have := encodeXYN_toNat (fieldHi w) (fieldX w) (fieldY w) (fieldN w)
  have := fieldHi_toNat w
  have := fieldX_toNat w
  have := fieldY_toNat w
  have := fieldN_toNat w
  have := w.isLt
  omega

/-- The two bytes of a word put together again (20_memory.md R52, R54). -/
@[simp] theorem wordOfBytes_bytes (w : Word) : wordOfBytes (highByte w) (lowByte w) = w := by
  apply BitVec.eq_of_toNat_eq
  have := wordOfBytes_toNat (highByte w) (lowByte w)
  have := highByte_toNat w
  have := lowByte_toNat w
  have := w.isLt
  omega

/-! ### Masks (30_encoding.md R74) -/

theorem and_field_eq (x k l : Nat) : x &&& ((2 ^ k - 1) <<< l) = x / 2 ^ l % 2 ^ k * 2 ^ l := by
  apply Nat.eq_of_testBit_eq
  intro i
  rw [Nat.testBit_and, Nat.testBit_shiftLeft, Nat.testBit_mul_two_pow, Nat.testBit_mod_two_pow, Nat.testBit_div_two_pow,
    Nat.testBit_two_pow_sub_one]
  by_cases h : l ≤ i
  · simp [h, Bool.and_comm]
  · simp [h]

/-- The mask F000 keeps the high nibble. -/
theorem and_F000 (w : Word) : w &&& 0xF000#16 = encodeNNN (fieldHi w) 0#12 := by
  apply BitVec.eq_of_toNat_eq
  rw [BitVec.toNat_and, encodeNNN_toNat, fieldHi_toNat]
  exact (and_field_eq w.toNat 4 12).trans (by simp)

/-- The mask 000F keeps the low nibble. -/
theorem and_000F (w : Word) : w &&& 0x000F#16 = encodeXYN 0#4 0#4 0#4 (fieldN w) := by
  apply BitVec.eq_of_toNat_eq
  rw [BitVec.toNat_and, encodeXYN_toNat, fieldN_toNat]
  exact (and_field_eq w.toNat 4 0).trans (by simp)

/-- The mask 00FF keeps the low byte. -/
theorem and_00FF (w : Word) : w &&& 0x00FF#16 = encodeXKK 0#4 0#4 (fieldKK w) := by
  apply BitVec.eq_of_toNat_eq
  rw [BitVec.toNat_and, encodeXKK_toNat, fieldKK_toNat]
  exact (and_field_eq w.toNat 8 0).trans (by simp)

theorem and_F00F (w : Word) : w &&& 0xF00F#16 = encodeXYN (fieldHi w) 0#4 0#4 (fieldN w) := by
  have h : w &&& 0xF00F#16 = (w &&& 0xF000#16) ||| (w &&& 0x000F#16) := by rw [← BitVec.and_or_distrib_left]; rfl
  rw [h, and_F000, and_000F]
  generalize fieldHi w = a
  generalize fieldN w = b
  revert a b
  decide

theorem and_F0FF (w : Word) : w &&& 0xF0FF#16 = encodeXKK (fieldHi w) 0#4 (fieldKK w) := by
  have h : w &&& 0xF0FF#16 = (w &&& 0xF000#16) ||| (w &&& 0x00FF#16) := by rw [← BitVec.and_or_distrib_left]; rfl
  rw [h, and_F000, and_00FF]
  generalize fieldHi w = a
  generalize fieldKK w = b
  apply BitVec.eq_of_toNat_eq
  have hb := b.isLt
  rw [BitVec.toNat_or, encodeNNN_toNat, encodeXKK_toNat, encodeXKK_toNat]
  have e : a.toNat * 4096 + (0#12).toNat = (a.toNat * 16) * 2 ^ 8 := by simp; ring
  rw [e, ← Nat.shiftLeft_eq]
  have e2 : (0#4).toNat * 4096 + (0#4).toNat * 256 + b.toNat = b.toNat := by simp
  rw [e2, ← Nat.shiftLeft_add_eq_or_of_lt hb, Nat.shiftLeft_eq]
  simp; ring

/-- Decoding an instruction's two bytes is decoding its word (R54, R70). -/
theorem decodeBytes_wordBytes (w : Word) (rest : List Byte) :
    decodeBytes (highByte w :: lowByte w :: rest) = (decodeWord w).map (fun i => (i, rest)) := by
  rw [decodeBytes, wordOfBytes_bytes]

/-- The decoder rejects a word only as an unknown opcode, and names that word. -/
theorem decodeWord_error {w : Word} {r : DecodeReject} (h : decodeWord w = .error r) : r = .unknownOpcode w := by
  unfold decodeWord decodeAlu decodeMisc at h
  repeat' split at h
  all_goals cases h
  all_goals rfl

/-! ### The fields a mask pins down -/

theorem fieldHi_of_and_F000 {w v : Word} (h : w &&& 0xF000#16 = v) : fieldHi w = fieldHi v := by
  subst h
  simp only [fieldHi, BitVec.extractLsb'_and]
  rw [show BitVec.extractLsb' 12 4 0xF000#16 = BitVec.allOnes 4 from rfl, BitVec.and_allOnes]

theorem fields_of_and_F00F {w v : Word} (h : w &&& 0xF00F#16 = v) : fieldHi w = fieldHi v ∧ fieldN w = fieldN v := by
  subst h
  simp only [fieldHi, fieldN, BitVec.extractLsb'_and]
  rw [show BitVec.extractLsb' 12 4 0xF00F#16 = BitVec.allOnes 4 from rfl,
    show BitVec.extractLsb' 0 4 0xF00F#16 = BitVec.allOnes 4 from rfl, BitVec.and_allOnes, BitVec.and_allOnes]
  exact ⟨rfl, rfl⟩

theorem fields_of_and_F0FF {w v : Word} (h : w &&& 0xF0FF#16 = v) : fieldHi w = fieldHi v ∧ fieldKK w = fieldKK v := by
  subst h
  simp only [fieldHi, fieldKK, BitVec.extractLsb'_and]
  rw [show BitVec.extractLsb' 12 4 0xF0FF#16 = BitVec.allOnes 4 from rfl,
    show BitVec.extractLsb' 0 8 0xF0FF#16 = BitVec.allOnes 8 from rfl, BitVec.and_allOnes, BitVec.and_allOnes]
  exact ⟨rfl, rfl⟩

/-- A test of the high nibble by mask. -/
theorem and_F000_eq_iff (w : Word) {k : Nat} (hk : k < 16) : w &&& 0xF000#16 = BitVec.ofNat 16 (k * 4096) ↔ (fieldHi w).toNat = k := by
  rw [and_F000, ← BitVec.toNat_inj, encodeNNN_toNat, BitVec.toNat_ofNat]
  simp; omega

theorem toNat_and_000F (w : Word) : (w &&& 0x000F#16).toNat = (fieldN w).toNat := by rw [and_000F, encodeXYN_toNat]; simp

theorem toNat_and_00FF (w : Word) : (w &&& 0x00FF#16).toNat = (fieldKK w).toNat := by rw [and_00FF, encodeXKK_toNat]; simp

end Sys2Proof
end

