-- ==== Sys2Proof/Laws/State.lean ====
section
/-! SUPPORT. Laws/State.lean: one lemma per field per update of the state, true by rfl, so that no later proof unfolds a record
update. -/

namespace Sys2Proof.Machine

variable (s : State)

/-! ### `State.setV` -/

@[simp] theorem State.setV_V (r : Nibble) (b : Byte) : (s.setV r b).V = s.V.set r.toNat b := rfl
@[simp] theorem State.setV_I (r : Nibble) (b : Byte) : (s.setV r b).I = s.I := rfl
@[simp] theorem State.setV_pc (r : Nibble) (b : Byte) : (s.setV r b).pc = s.pc := rfl
@[simp] theorem State.setV_stack (r : Nibble) (b : Byte) : (s.setV r b).stack = s.stack := rfl
@[simp] theorem State.setV_sp (r : Nibble) (b : Byte) : (s.setV r b).sp = s.sp := rfl
@[simp] theorem State.setV_DT (r : Nibble) (b : Byte) : (s.setV r b).DT = s.DT := rfl
@[simp] theorem State.setV_ST (r : Nibble) (b : Byte) : (s.setV r b).ST = s.ST := rfl
@[simp] theorem State.setV_fb (r : Nibble) (b : Byte) : (s.setV r b).fb = s.fb := rfl
@[simp] theorem State.setV_key (r : Nibble) (b : Byte) : (s.setV r b).key = s.key := rfl
@[simp] theorem State.setV_mem (r : Nibble) (b : Byte) : (s.setV r b).mem = s.mem := rfl
@[simp] theorem State.setV_status (r : Nibble) (b : Byte) : (s.setV r b).status = s.status := rfl
@[simp] theorem State.setV_waitReg (r : Nibble) (b : Byte) : (s.setV r b).waitReg = s.waitReg := rfl
@[simp] theorem State.setV_fault (r : Nibble) (b : Byte) : (s.setV r b).fault = s.fault := rfl
@[simp] theorem State.setV_draws (r : Nibble) (b : Byte) : (s.setV r b).draws = s.draws := rfl

/-! ### `State.advance` -/

@[simp] theorem State.advance_V : (s.advance).V = s.V := rfl
@[simp] theorem State.advance_I : (s.advance).I = s.I := rfl
@[simp] theorem State.advance_pc : (s.advance).pc = s.pc + 2#16 := rfl
@[simp] theorem State.advance_stack : (s.advance).stack = s.stack := rfl
@[simp] theorem State.advance_sp : (s.advance).sp = s.sp := rfl
@[simp] theorem State.advance_DT : (s.advance).DT = s.DT := rfl
@[simp] theorem State.advance_ST : (s.advance).ST = s.ST := rfl
@[simp] theorem State.advance_fb : (s.advance).fb = s.fb := rfl
@[simp] theorem State.advance_key : (s.advance).key = s.key := rfl
@[simp] theorem State.advance_mem : (s.advance).mem = s.mem := rfl
@[simp] theorem State.advance_status : (s.advance).status = s.status := rfl
@[simp] theorem State.advance_waitReg : (s.advance).waitReg = s.waitReg := rfl
@[simp] theorem State.advance_fault : (s.advance).fault = s.fault := rfl
@[simp] theorem State.advance_draws : (s.advance).draws = s.draws := rfl

/-! ### `State.jump` -/

@[simp] theorem State.jump_V (target : Word) : (s.jump target).V = s.V := rfl
@[simp] theorem State.jump_I (target : Word) : (s.jump target).I = s.I := rfl
@[simp] theorem State.jump_pc (target : Word) : (s.jump target).pc = target := rfl
@[simp] theorem State.jump_stack (target : Word) : (s.jump target).stack = s.stack := rfl
@[simp] theorem State.jump_sp (target : Word) : (s.jump target).sp = s.sp := rfl
@[simp] theorem State.jump_DT (target : Word) : (s.jump target).DT = s.DT := rfl
@[simp] theorem State.jump_ST (target : Word) : (s.jump target).ST = s.ST := rfl
@[simp] theorem State.jump_fb (target : Word) : (s.jump target).fb = s.fb := rfl
@[simp] theorem State.jump_key (target : Word) : (s.jump target).key = s.key := rfl
@[simp] theorem State.jump_mem (target : Word) : (s.jump target).mem = s.mem := rfl
@[simp] theorem State.jump_status (target : Word) : (s.jump target).status = s.status := rfl
@[simp] theorem State.jump_waitReg (target : Word) : (s.jump target).waitReg = s.waitReg := rfl
@[simp] theorem State.jump_fault (target : Word) : (s.jump target).fault = s.fault := rfl
@[simp] theorem State.jump_draws (target : Word) : (s.jump target).draws = s.draws := rfl

/-! ### `State.tickDraws` -/

@[simp] theorem State.tickDraws_V : (s.tickDraws).V = s.V := rfl
@[simp] theorem State.tickDraws_I : (s.tickDraws).I = s.I := rfl
@[simp] theorem State.tickDraws_pc : (s.tickDraws).pc = s.pc := rfl
@[simp] theorem State.tickDraws_stack : (s.tickDraws).stack = s.stack := rfl
@[simp] theorem State.tickDraws_sp : (s.tickDraws).sp = s.sp := rfl
@[simp] theorem State.tickDraws_DT : (s.tickDraws).DT = s.DT := rfl
@[simp] theorem State.tickDraws_ST : (s.tickDraws).ST = s.ST := rfl
@[simp] theorem State.tickDraws_fb : (s.tickDraws).fb = s.fb := rfl
@[simp] theorem State.tickDraws_key : (s.tickDraws).key = s.key := rfl
@[simp] theorem State.tickDraws_mem : (s.tickDraws).mem = s.mem := rfl
@[simp] theorem State.tickDraws_status : (s.tickDraws).status = s.status := rfl
@[simp] theorem State.tickDraws_waitReg : (s.tickDraws).waitReg = s.waitReg := rfl
@[simp] theorem State.tickDraws_fault : (s.tickDraws).fault = s.fault := rfl
@[simp] theorem State.tickDraws_draws : (s.tickDraws).draws = s.draws + 1 := rfl

/-! ### `State.raise` -/

@[simp] theorem State.raise_V (k : ErrorKind) (p : Word) (o : Option Word) : (s.raise k p o).V = s.V := rfl
@[simp] theorem State.raise_I (k : ErrorKind) (p : Word) (o : Option Word) : (s.raise k p o).I = s.I := rfl
@[simp] theorem State.raise_pc (k : ErrorKind) (p : Word) (o : Option Word) : (s.raise k p o).pc = s.pc := rfl
@[simp] theorem State.raise_stack (k : ErrorKind) (p : Word) (o : Option Word) : (s.raise k p o).stack = s.stack := rfl
@[simp] theorem State.raise_sp (k : ErrorKind) (p : Word) (o : Option Word) : (s.raise k p o).sp = s.sp := rfl
@[simp] theorem State.raise_DT (k : ErrorKind) (p : Word) (o : Option Word) : (s.raise k p o).DT = s.DT := rfl
@[simp] theorem State.raise_ST (k : ErrorKind) (p : Word) (o : Option Word) : (s.raise k p o).ST = s.ST := rfl
@[simp] theorem State.raise_fb (k : ErrorKind) (p : Word) (o : Option Word) : (s.raise k p o).fb = s.fb := rfl
@[simp] theorem State.raise_key (k : ErrorKind) (p : Word) (o : Option Word) : (s.raise k p o).key = s.key := rfl
@[simp] theorem State.raise_mem (k : ErrorKind) (p : Word) (o : Option Word) : (s.raise k p o).mem = s.mem := rfl
@[simp] theorem State.raise_status (k : ErrorKind) (p : Word) (o : Option Word) : (s.raise k p o).status = .halted := rfl
@[simp] theorem State.raise_waitReg (k : ErrorKind) (p : Word) (o : Option Word) : (s.raise k p o).waitReg = s.waitReg := rfl
@[simp] theorem State.raise_fault (k : ErrorKind) (p : Word) (o : Option Word) : (s.raise k p o).fault = some { kind := k, pc := p, opcode := o } := rfl
@[simp] theorem State.raise_draws (k : ErrorKind) (p : Word) (o : Option Word) : (s.raise k p o).draws = s.draws := rfl

/-! ### `State.timerTick` -/

@[simp] theorem State.timerTick_V : (s.timerTick).V = s.V := rfl
@[simp] theorem State.timerTick_I : (s.timerTick).I = s.I := rfl
@[simp] theorem State.timerTick_pc : (s.timerTick).pc = s.pc := rfl
@[simp] theorem State.timerTick_stack : (s.timerTick).stack = s.stack := rfl
@[simp] theorem State.timerTick_sp : (s.timerTick).sp = s.sp := rfl
@[simp] theorem State.timerTick_DT : (s.timerTick).DT = countDown s.DT := rfl
@[simp] theorem State.timerTick_ST : (s.timerTick).ST = countDown s.ST := rfl
@[simp] theorem State.timerTick_fb : (s.timerTick).fb = s.fb := rfl
@[simp] theorem State.timerTick_key : (s.timerTick).key = s.key := rfl
@[simp] theorem State.timerTick_mem : (s.timerTick).mem = s.mem := rfl
@[simp] theorem State.timerTick_status : (s.timerTick).status = s.status := rfl
@[simp] theorem State.timerTick_waitReg : (s.timerTick).waitReg = s.waitReg := rfl
@[simp] theorem State.timerTick_fault : (s.timerTick).fault = s.fault := rfl
@[simp] theorem State.timerTick_draws : (s.timerTick).draws = s.draws := rfl

/-! ### `State.setKey` -/

@[simp] theorem State.setKey_V (c : Nibble) (d : Bool) : (s.setKey c d).V = s.V := rfl
@[simp] theorem State.setKey_I (c : Nibble) (d : Bool) : (s.setKey c d).I = s.I := rfl
@[simp] theorem State.setKey_pc (c : Nibble) (d : Bool) : (s.setKey c d).pc = s.pc := rfl
@[simp] theorem State.setKey_stack (c : Nibble) (d : Bool) : (s.setKey c d).stack = s.stack := rfl
@[simp] theorem State.setKey_sp (c : Nibble) (d : Bool) : (s.setKey c d).sp = s.sp := rfl
@[simp] theorem State.setKey_DT (c : Nibble) (d : Bool) : (s.setKey c d).DT = s.DT := rfl
@[simp] theorem State.setKey_ST (c : Nibble) (d : Bool) : (s.setKey c d).ST = s.ST := rfl
@[simp] theorem State.setKey_fb (c : Nibble) (d : Bool) : (s.setKey c d).fb = s.fb := rfl
@[simp] theorem State.setKey_key (c : Nibble) (d : Bool) : (s.setKey c d).key = s.key.set c.toNat d := rfl
@[simp] theorem State.setKey_mem (c : Nibble) (d : Bool) : (s.setKey c d).mem = s.mem := rfl
@[simp] theorem State.setKey_status (c : Nibble) (d : Bool) : (s.setKey c d).status = s.status := rfl
@[simp] theorem State.setKey_waitReg (c : Nibble) (d : Bool) : (s.setKey c d).waitReg = s.waitReg := rfl
@[simp] theorem State.setKey_fault (c : Nibble) (d : Bool) : (s.setKey c d).fault = s.fault := rfl
@[simp] theorem State.setKey_draws (c : Nibble) (d : Bool) : (s.setKey c d).draws = s.draws := rfl

/-! ### `State.skipIf` and `State.writeFlagThenResult` -/

theorem State.skipIf_eq (c : Bool) : s.skipIf c = { s with pc := if c then s.pc + 2#16 else s.pc } := by
  cases c <;> rfl

theorem State.writeFlagThenResult_eq (x : Nibble) (flag result : Byte) :
    s.writeFlagThenResult x flag result = { s with V := (s.V.set VF.toNat flag).set x.toNat result } := rfl

/-! ### The register view of the updates that write no register -/

@[simp] theorem State.getV_advance (q : Nibble) : (s.advance).getV q = s.getV q := rfl
@[simp] theorem State.getV_jump (target : Word) (q : Nibble) : (s.jump target).getV q = s.getV q := rfl
@[simp] theorem State.getV_tickDraws (q : Nibble) : (s.tickDraws).getV q = s.getV q := rfl
@[simp] theorem State.getV_raise (k : ErrorKind) (p : Word) (o : Option Word) (q : Nibble) : (s.raise k p o).getV q = s.getV q := rfl
@[simp] theorem State.getV_timerTick (q : Nibble) : (s.timerTick).getV q = s.getV q := rfl
@[simp] theorem State.getV_setKey (c : Nibble) (d : Bool) (q : Nibble) : (s.setKey c d).getV q = s.getV q := rfl

/-- Reading a register after writing one. -/
@[simp] theorem State.getV_setV (r q : Nibble) (b : Byte) :
    (s.setV r b).getV q = if q = r then b else s.getV q := by
  simp only [State.getV, State.setV, Vector.getElem_set, BitVec.toNat_inj, eq_comm]

theorem State.getV_writeFlagThenResult (x q : Nibble) (flag result : Byte) :
    (s.writeFlagThenResult x flag result).getV q =
      if q = x then result else if q = VF then flag else s.getV q := by
  simp [State.writeFlagThenResult]

end Sys2Proof.Machine
end

