-- ==== Sys2Proof/Laws/Framebuffer.lean ====
section
/-! SUPPORT. Laws/Framebuffer.lean: what drawing does to each pixel and to the collision flag, once (43_graphics.md R161, R162). -/

namespace Sys2Proof.Machine

theorem Framebuffer.pixel_eq (fb : Framebuffer) {x y : Nat} (hx : x < 64) (hy : y < 32) : fb.pixel x y = fb[y][x] := by
  simp [Framebuffer.pixel, hx, hy]

theorem Framebuffer.pixel_outside (fb : Framebuffer) {x y : Nat} (h : ¬ (x < 64 ∧ y < 32)) : fb.pixel x y = false := by
  by_cases hy : y < 32
  · have hx : ¬ x < 64 := fun hx => h ⟨hx, hy⟩
    simp [Framebuffer.pixel, hy, hx]
  · simp [Framebuffer.pixel, hy]

/-- Two framebuffers with the same pixels are the same. -/
theorem Framebuffer.ext_pixel {fb gb : Framebuffer} (h : ∀ x y, fb.pixel x y = gb.pixel x y) : fb = gb := by
  apply Vector.ext
  intro y hy
  apply Vector.ext
  intro x hx
  rw [← Framebuffer.pixel_eq fb hx hy, h, Framebuffer.pixel_eq gb hx hy]

@[simp] theorem Framebuffer.pixel_blank (x y : Nat) : Framebuffer.blank.pixel x y = false := by
  by_cases h : x < 64 ∧ y < 32
  · rw [Framebuffer.pixel_eq _ h.1 h.2]; simp [Framebuffer.blank]
  · exact Framebuffer.pixel_outside _ h

/-- One pixel drawn: that pixel is XORed with the bit, inside the grid; no other changes. -/
theorem Framebuffer.pixel_drawPixel (px py : Nat) (bit : Bool) (acc : Framebuffer × Bool) (x y : Nat) :
    (Framebuffer.drawPixel px py bit acc).1.pixel x y =
      (acc.1.pixel x y ^^ (decide (x = px) && decide (y = py) && decide (x < 64) && decide (y < 32) && bit)) := by
  unfold Framebuffer.drawPixel
  split
  · rename_i h
    by_cases hin : x < 64 ∧ y < 32
    · rw [Framebuffer.pixel_eq _ hin.1 hin.2, Framebuffer.pixel_eq _ hin.1 hin.2]
      simp only [Vector.getElem_set]
      by_cases hy : y = py
      · subst hy
        by_cases hx : x = px
        · subst hx; simp [hin.1, hin.2]
        · simp [hx, Ne.symm hx]
      · simp [hy, Ne.symm hy]
    · rw [Framebuffer.pixel_outside _ hin, Framebuffer.pixel_outside _ hin]
      have e : ¬ (x = px ∧ y = py) := by rintro ⟨rfl, rfl⟩; exact hin h
      by_cases h1 : x = px
      · have h2 : y ≠ py := fun h2 => e ⟨h1, h2⟩
        simp [h2]
      · simp [h1]
  · rename_i h
    by_cases h1 : x = px
    · by_cases h2 : y = py
      · subst h1 h2
        rcases not_and_or.mp h with h | h <;> simp [h]
      · simp [h2]
    · simp [h1]

/-- One pixel drawn: the collision flag. -/
theorem Framebuffer.collision_drawPixel (px py : Nat) (bit : Bool) (acc : Framebuffer × Bool) :
    (Framebuffer.drawPixel px py bit acc).2 = (acc.2 || (bit && acc.1.pixel px py)) := by
  unfold Framebuffer.drawPixel
  split
  · rename_i h
    rw [Framebuffer.pixel_eq _ h.1 h.2]
  · rename_i h
    rw [Framebuffer.pixel_outside _ h]; simp

/-- A run of pixels of one row, for the columns `c` of a list with no repeats: the pixels. -/
theorem Framebuffer.pixel_foldl (ax py : Nat) (row : Byte) (cs : List Nat) (hcs : cs.Nodup) (acc : Framebuffer × Bool)
    (x y : Nat) :
    (cs.foldl (fun acc c => Framebuffer.drawPixel (ax + c) py (row.getLsbD (7 - c)) acc) acc).1.pixel x y =
      (acc.1.pixel x y ^^
        (decide (ax ≤ x) && decide (x - ax ∈ cs) && decide (y = py) && decide (x < 64) && decide (y < 32) &&
          row.getLsbD (7 - (x - ax)))) := by
  induction cs generalizing acc with
  | nil => simp
  | cons c cs ih =>
    rw [List.foldl_cons, ih (List.nodup_cons.mp hcs).2, Framebuffer.pixel_drawPixel, Bool.xor_assoc]
    congr 1
    have hc : c ∉ cs := (List.nodup_cons.mp hcs).1
    by_cases hx : x = ax + c
    · subst hx
      simp only [Nat.add_sub_cancel_left, hc, List.mem_cons, true_or, decide_true, decide_false, Nat.le_add_right,
        Bool.and_false, Bool.false_and, Bool.xor_false, Bool.true_and]
    · have hne : ax ≤ x → x - ax ≠ c := by omega
      by_cases hle : ax ≤ x
      · simp [hx, hle, hne hle]
      · simp [hx, hle]

/-- A run of pixels of one row: the collision flag, judged on the pixels before the run. -/
theorem Framebuffer.collision_foldl (ax py : Nat) (row : Byte) (cs : List Nat) (hcs : cs.Nodup) (acc : Framebuffer × Bool) :
    (cs.foldl (fun acc c => Framebuffer.drawPixel (ax + c) py (row.getLsbD (7 - c)) acc) acc).2 = true ↔
      acc.2 = true ∨ ∃ c ∈ cs, row.getLsbD (7 - c) = true ∧ acc.1.pixel (ax + c) py = true := by
  induction cs generalizing acc with
  | nil => simp
  | cons c cs ih =>
    rw [List.foldl_cons, ih (List.nodup_cons.mp hcs).2, Framebuffer.collision_drawPixel]
    have hc : c ∉ cs := (List.nodup_cons.mp hcs).1
    have same : ∀ d ∈ cs, (Framebuffer.drawPixel (ax + c) py (row.getLsbD (7 - c)) acc).1.pixel (ax + d) py =
        acc.1.pixel (ax + d) py := by
      intro d hd
      have hdc : ax + d ≠ ax + c := fun h => hc (by rwa [← Nat.add_left_cancel h])
      rw [Framebuffer.pixel_drawPixel]; simp only [hdc, decide_false, Bool.false_and, Bool.xor_false]
    simp only [Bool.or_eq_true, Bool.and_eq_true, List.mem_cons, exists_eq_or_imp, or_assoc]
    have : (∃ d ∈ cs, row.getLsbD (7 - d) = true ∧
          (Framebuffer.drawPixel (ax + c) py (row.getLsbD (7 - c)) acc).1.pixel (ax + d) py = true) ↔
        ∃ d ∈ cs, row.getLsbD (7 - d) = true ∧ acc.1.pixel (ax + d) py = true := by
      constructor <;> rintro ⟨d, hd, h1, h2⟩ <;> exact ⟨d, hd, h1, by simpa [same d hd] using h2⟩
    rw [this]

/-- One sprite row: the pixels (R161). -/
theorem Framebuffer.pixel_drawRow (ax py : Nat) (row : Byte) (acc : Framebuffer × Bool) (x y : Nat) :
    (Framebuffer.drawRow ax py row acc).1.pixel x y =
      (acc.1.pixel x y ^^
        (decide (ax ≤ x) && decide (x < ax + 8) && decide (y = py) && decide (x < 64) && decide (y < 32) &&
          row.getLsbD (7 - (x - ax)))) := by
  rw [Framebuffer.drawRow, Framebuffer.pixel_foldl _ _ _ _ List.nodup_range]
  congr 1
  by_cases hle : ax ≤ x
  · have : x - ax < 8 ↔ x < ax + 8 := by omega
    simp [List.mem_range, this]
  · simp [hle]

/-- One sprite row: the collision flag (R161). -/
theorem Framebuffer.collision_drawRow (ax py : Nat) (row : Byte) (acc : Framebuffer × Bool) :
    (Framebuffer.drawRow ax py row acc).2 = true ↔
      acc.2 = true ∨ ∃ c < 8, row.getLsbD (7 - c) = true ∧ acc.1.pixel (ax + c) py = true := by
  rw [Framebuffer.drawRow, Framebuffer.collision_foldl _ _ _ _ List.nodup_range]
  simp [List.mem_range]

/-- A whole sprite: the pixels (R161). -/
theorem Framebuffer.pixel_drawRows (ax ay : Nat) (rows : List Byte) (acc : Framebuffer × Bool) (x y : Nat) :
    (Framebuffer.drawRows ax ay rows acc).1.pixel x y =
      (acc.1.pixel x y ^^ (decide (x < 64) && decide (y < 32) && spriteBit rows ax ay x y)) := by
  induction rows generalizing ay acc with
  | nil => simp [Framebuffer.drawRows, spriteBit]
  | cons b bs ih =>
    rw [Framebuffer.drawRows, ih, Framebuffer.pixel_drawRow, Bool.xor_assoc]
    congr 1
    simp only [spriteBit, List.length_cons]
    by_cases hx : ax ≤ x ∧ x < ax + 8
    · by_cases h1 : y = ay
      · subst h1
        have h2 : ¬ y + 1 ≤ y := by omega
        simp only [hx.1, hx.2, h2, Nat.sub_self, List.getD_cons_zero, decide_true, decide_false, Bool.and_false,
          Bool.false_and, Bool.xor_false, Bool.true_and, le_refl, Bool.and_true,
          show y < y + (bs.length + 1) by omega]
      · by_cases h2 : ay + 1 ≤ y
        · obtain ⟨j, hj⟩ : ∃ j, y - ay = j + 1 := ⟨y - ay - 1, by omega⟩
          have hj' : y - (ay + 1) = j := by omega
          have h3 : ay ≤ y := by omega
          have h4 : y < ay + 1 + bs.length ↔ y < ay + (bs.length + 1) := by omega
          simp only [hx.1, hx.2, h1, h2, h3, hj, hj', h4, List.getD_cons_succ, decide_true, decide_false, Bool.and_false,
            Bool.false_and, Bool.false_xor, Bool.true_and]
        · have h3 : ¬ ay ≤ y := by omega
          simp [h1, h2, h3]
    · rcases not_and_or.mp hx with hx | hx <;> simp [hx]

/-- A whole sprite: the collision flag, judged on the pixels before the draw (R161). -/
theorem Framebuffer.collision_drawRows (ax ay : Nat) (rows : List Byte) (acc : Framebuffer × Bool) :
    (Framebuffer.drawRows ax ay rows acc).2 = true ↔
      acc.2 = true ∨ ∃ x y, spriteBit rows ax ay x y = true ∧ acc.1.pixel x y = true := by
  induction rows generalizing ay acc with
  | nil => simp [Framebuffer.drawRows, spriteBit]
  | cons b bs ih =>
    rw [Framebuffer.drawRows, ih, Framebuffer.collision_drawRow, or_assoc]
    apply or_congr_right
    constructor
    · rintro (⟨c, hc, h1, h2⟩ | ⟨x, y, h1, h2⟩)
      · refine ⟨ax + c, ay, ?_, h2⟩
        simp only [spriteBit, List.length_cons, Nat.sub_self, List.getD_cons_zero, Nat.add_sub_cancel_left, h1]
        simp; omega
      · rw [Framebuffer.pixel_drawRow] at h2
        simp only [spriteBit, Bool.and_eq_true, decide_eq_true_eq] at h1
        obtain ⟨⟨⟨⟨hx, hx'⟩, hy⟩, hy'⟩, hb⟩ := h1
        refine ⟨x, y, ?_, ?_⟩
        · obtain ⟨j, hj⟩ : ∃ j, y - ay = j + 1 := ⟨y - ay - 1, by omega⟩
          have hj' : y - (ay + 1) = j := by omega
          rw [hj'] at hb
          simp only [spriteBit, List.length_cons, hj, List.getD_cons_succ, hb, Bool.and_true, Bool.and_eq_true,
            decide_eq_true_eq]
          omega
        · have : y ≠ ay := by omega
          simpa [this] using h2
    · rintro ⟨x, y, h1, h2⟩
      simp only [spriteBit, Bool.and_eq_true, decide_eq_true_eq, List.length_cons] at h1
      obtain ⟨⟨⟨⟨hx, hx'⟩, hy⟩, hy'⟩, hb⟩ := h1
      by_cases h : y = ay
      · subst h
        simp only [Nat.sub_self, List.getD_cons_zero] at hb
        exact .inl ⟨x - ax, by omega, hb, by rwa [Nat.add_sub_cancel' hx]⟩
      · right
        obtain ⟨j, hj⟩ : ∃ j, y - ay = j + 1 := ⟨y - ay - 1, by omega⟩
        have hj' : y - (ay + 1) = j := by omega
        rw [hj, List.getD_cons_succ] at hb
        refine ⟨x, y, ?_, ?_⟩
        · simp only [spriteBit, hj', hb, Bool.and_true, Bool.and_eq_true, decide_eq_true_eq]; omega
        · rw [Framebuffer.pixel_drawRow, h2]; simp [h]

end Sys2Proof.Machine
end

