-- ==== Sys2Proof/Laws/Memory.lean ====
section
/-! SUPPORT. Laws/Memory.lean: what the memory operations do, once: read after write, the canonical form kept, and the ranges
(20_memory.md R50 to R59). -/

namespace Sys2Proof.Machine


/-- A canonical list from a higher address on is one from a lower address on. -/
theorem Memory.wfFrom_mono {lo lo' : Nat} {m : Memory} (h : lo' ≤ lo) (hm : Memory.wfFrom lo m = true) : Memory.wfFrom lo' m = true := by
  cases m with
  | nil => rfl
  | cons c m =>
    simp only [Memory.wfFrom, Bool.and_eq_true, decide_eq_true_eq] at hm ⊢
    exact ⟨⟨⟨h.trans hm.1.1.1, hm.1.1.2⟩, hm.1.2⟩, hm.2⟩

/-- Below its first address a canonical list lists nothing. -/
theorem Memory.peek_of_lt {lo a : Nat} {m : Memory} (hm : Memory.wfFrom lo m = true) (h : a < lo) : Memory.peek m a = Memory.bootByte a := by
  induction m generalizing lo with
  | nil => rfl
  | cons c m ih =>
    simp only [Memory.wfFrom, Bool.and_eq_true, decide_eq_true_eq] at hm
    have hne : a ≠ c.1 := by omega
    simp only [Memory.peek, if_neg hne]
    exact ih hm.2 (by omega)

/-- Read after write: the byte written at its address, every other address as before. -/
theorem Memory.peek_poke_from {lo : Nat} {m : Memory} (hm : Memory.wfFrom lo m = true) (a b : Nat) (v : Byte) :
    Memory.peek (Memory.poke m a v) b = if b = a then v else Memory.peek m b := by
  induction m generalizing lo with
  | nil => by_cases hv : v = Memory.bootByte a <;> by_cases hb : b = a <;> simp [Memory.poke, Memory.peek, hv, hb]
  | cons c m ih =>
    obtain ⟨c, u⟩ := c
    simp only [Memory.wfFrom, Bool.and_eq_true, decide_eq_true_eq] at hm
    by_cases h1 : a < c
    · have hboot : Memory.peek m a = Memory.bootByte a := Memory.peek_of_lt hm.2 (by omega)
      have hac : a ≠ c := by omega
      by_cases hv : v = Memory.bootByte a <;> by_cases hb : b = a <;> simp [Memory.poke, Memory.peek, h1, hv, hb, hac, hboot]
    · by_cases h2 : a = c
      · subst h2
        have hboot : Memory.peek m a = Memory.bootByte a := Memory.peek_of_lt hm.2 (by omega)
        by_cases hv : v = Memory.bootByte a <;> by_cases hb : b = a <;> simp [Memory.poke, Memory.peek, hv, hb, hboot]
      · by_cases hb : b = c
        · have hba : b ≠ a := by omega
          simp [Memory.poke, Memory.peek, h1, h2, hb]; omega
        · simp [Memory.poke, Memory.peek, h1, h2, hb, ih hm.2]

/-- Writing keeps the canonical form. -/
theorem Memory.wfFrom_poke {lo a : Nat} {m : Memory} (hm : Memory.wfFrom lo m = true) (hlo : lo ≤ a) (ha : a < Config.memSize) (v : Byte) :
    Memory.wfFrom lo (Memory.poke m a v) = true := by
  induction m generalizing lo with
  | nil => by_cases hv : v = Memory.bootByte a <;> simp [Memory.poke, Memory.wfFrom, hv, hlo, ha]
  | cons c m ih =>
    obtain ⟨c, u⟩ := c
    have hm' := hm
    simp only [Memory.wfFrom, Bool.and_eq_true, decide_eq_true_eq] at hm
    obtain ⟨⟨⟨hc, hc'⟩, hu⟩, hrest⟩ := hm
    by_cases h1 : a < c
    · by_cases hv : v = Memory.bootByte a
      · simpa [Memory.poke, h1, hv] using hm'
      · simp [Memory.poke, h1, hv, Memory.wfFrom, hlo, ha, hc', hrest]
        simpa using hu
    · by_cases h2 : a = c
      · subst h2
        by_cases hv : v = Memory.bootByte a
        · simp only [Memory.poke, lt_irrefl, if_true, if_false, hv]
          exact Memory.wfFrom_mono (by omega) hrest
        · simp [Memory.poke, hv, Memory.wfFrom, hlo, ha, hrest]
      · simp only [Memory.poke, h1, h2, if_false, Memory.wfFrom, Bool.and_eq_true, decide_eq_true_eq]
        exact ⟨⟨⟨hc, hc'⟩, hu⟩, ih hrest (by omega)⟩

/-- `Memory.peek_poke_from` for a canonical memory. -/
theorem Memory.peek_poke {m : Memory} (hm : m.wf = true) (a b : Nat) (v : Byte) :
    Memory.peek (Memory.poke m a v) b = if b = a then v else Memory.peek m b := Memory.peek_poke_from hm a b v

/-- `Memory.wfFrom_poke` for a canonical memory. -/
theorem Memory.wf_poke {m : Memory} (hm : m.wf = true) {a : Nat} (ha : a < Config.memSize) (v : Byte) : (Memory.poke m a v).wf = true :=
  Memory.wfFrom_poke hm (Nat.zero_le a) ha v

/-- Copying a block keeps the canonical form. -/
theorem Memory.wf_pokeAll {m : Memory} (hm : m.wf = true) {a : Nat} {bs : List Byte} (h : bs = [] ∨ a + bs.length ≤ Config.memSize) :
    (Memory.pokeAll m a bs).wf = true := by
  induction bs generalizing m a with
  | nil => exact hm
  | cons b bs ih =>
    simp only [List.length_cons, reduceCtorEq, false_or] at h
    exact ih (Memory.wf_poke hm (by omega) b) (.inr (by omega))

/-- Reading after a block was copied in. -/
theorem Memory.peek_pokeAll {m : Memory} (hm : m.wf = true) {a : Nat} {bs : List Byte}
    (h : bs = [] ∨ a + bs.length ≤ Config.memSize) (b : Nat) :
    Memory.peek (Memory.pokeAll m a bs) b = if a ≤ b ∧ b < a + bs.length then bs.getD (b - a) 0 else Memory.peek m b := by
  induction bs generalizing m a with
  | nil => simp [Memory.pokeAll]
  | cons c bs ih =>
    simp only [List.length_cons, reduceCtorEq, false_or] at h
    rw [Memory.pokeAll, ih (Memory.wf_poke hm (by omega) c) (.inr (by omega)), Memory.peek_poke hm]
    by_cases h1 : b = a
    · subst h1
      rw [if_neg (by omega), if_pos rfl, if_pos (by simp)]
      simp
    · by_cases h2 : a + 1 ≤ b ∧ b < a + 1 + bs.length
      · rw [if_pos h2, if_pos (by simp; omega)]
        obtain ⟨k, hk⟩ : ∃ k, b - a = k + 1 := ⟨b - a - 1, by omega⟩
        rw [hk, List.getD_cons_succ]
        congr 1; omega
      · rw [if_neg h2, if_neg h1, if_neg (by simp; omega)]

/-- Reset memory lists nothing and is canonical. -/
theorem Memory.wf_reset : State.reset.mem.wf = true := rfl


/-- `MemRead` of one byte: in range, the byte (R50). -/
theorem State.memRead_eq (s : State) (a : Nat) :
    s.memRead a = if a < Config.memSize then some (Memory.peek s.mem a) else none := rfl

/-- `MemRead` of two bytes: in range when both bytes are (R52). -/
theorem State.memRead2_eq (s : State) (a : Nat) :
    s.memRead2 a =
      if a + 1 < Config.memSize then some (wordOfBytes (Memory.peek s.mem a) (Memory.peek s.mem (a + 1))) else none := by
  by_cases h : a + 1 < Config.memSize
  · have h' : a < Config.memSize := by omega
    simp [State.memRead2, State.memRead, h, h']
  · by_cases h' : a < Config.memSize <;> simp [State.memRead2, State.memRead, h, h']

/-- A fetch succeeds exactly at `pc <= 0xFFE` (R55). -/
theorem State.fetch_isSome (s : State) : s.fetch.isSome ↔ s.pc.toNat ≤ 0xFFE := by
  rw [State.fetch, State.memRead2_eq]
  split <;> rename_i h <;> simp only [Config.memSize] at h <;> simp <;> omega

theorem State.fetch_none (s : State) : s.fetch = none ↔ s.pc.toNat > 0xFFE := by
  have := s.fetch_isSome
  cases h : s.fetch <;> simp_all

/-- A successful fetch bounds the pc. -/
theorem State.pc_le_of_fetch {s : State} {w : Word} (h : s.fetch = some w) : s.pc.toNat ≤ 0xFFE :=
  s.fetch_isSome.mp (by simp [h])

/-- `MemWrite` of one byte: in range, only memory changes (R51). -/
theorem State.memWrite_eq (s : State) (a : Nat) (v : Byte) :
    s.memWrite a v = if a < Config.memSize then some { s with mem := Memory.poke s.mem a v } else none := rfl

/-- Reading a range: all of it in range, or nothing (R57, R59, R145). -/
theorem State.readRange_eq (s : State) (a n : Nat) :
    s.readRange a n =
      if n = 0 ∨ a + n ≤ Config.memSize then some ((List.range n).map fun k => Memory.peek s.mem (a + k)) else none := by
  induction n generalizing a with
  | zero => simp [State.readRange]
  | succ n ih =>
    rw [State.readRange, ih (a + 1), State.memRead_eq]
    by_cases h : a + (n + 1) ≤ Config.memSize
    · rw [if_pos (by omega), if_pos (by omega), if_pos (by omega)]
      simp only [List.range_succ_eq_map, List.map_cons, List.map_map, Nat.add_zero, Option.some.injEq, List.cons.injEq, true_and]
      apply List.map_congr_left
      intro k _
      simp only [Function.comp_apply]
      congr 1; omega
    · rw [if_neg (c := n + 1 = 0 ∨ _) (by omega)]
      by_cases h0 : n = 0
      · subst h0
        rw [if_neg (by omega)]
      · rw [if_neg (c := n = 0 ∨ _) (by omega)]
        split <;> simp_all

/-- A range read fails exactly when it holds a byte above 0xFFF (R145). -/
theorem State.readRange_none (s : State) (a n : Nat) : s.readRange a n = none ↔ 1 ≤ n ∧ a + n - 1 > 0xFFF := by
  rw [State.readRange_eq]
  split <;> rename_i h <;> simp only [Config.memSize] at h <;> simp <;> omega

/-- A range read that succeeds lies in bounds and answers its bytes. -/
theorem State.readRange_some {s : State} {a n : Nat} {bs : List Byte} (h : s.readRange a n = some bs) :
    (n = 0 ∨ a + n - 1 ≤ 0xFFF) ∧ bs = (List.range n).map fun k => Memory.peek s.mem (a + k) := by
  rw [State.readRange_eq] at h
  split at h
  · rename_i hc
    simp only [Config.memSize] at hc
    exact ⟨by omega, (Option.some.inj h).symm⟩
  · cases h

/-- Writing a range: all of it in range, and then only memory changes, or nothing (R57, R59, R145). -/
theorem State.writeRange_eq (s : State) (a : Nat) (bs : List Byte) :
    s.writeRange a bs =
      if bs = [] ∨ a + bs.length ≤ Config.memSize then some { s with mem := Memory.pokeAll s.mem a bs } else none := by
  induction bs generalizing s a with
  | nil => simp [State.writeRange, Memory.pokeAll]
  | cons b bs ih =>
    rw [State.writeRange, State.memWrite_eq]
    by_cases h : a + (b :: bs).length ≤ Config.memSize
    · have h' := h
      simp only [List.length_cons] at h'
      rw [if_pos (by omega), if_pos (.inr h)]
      simp only [ih, Memory.pokeAll]
      rw [if_pos (.inr (by omega))]
    · rw [if_neg (c := _ ∨ _) (by simpa using h)]
      have h' := h
      simp only [List.length_cons] at h'
      by_cases ha : a < Config.memSize
      · simp only [if_pos ha, ih]
        rw [if_neg]
        rintro (h0 | h0)
        · simp [h0] at h'; omega
        · omega
      · simp only [if_neg ha]

/-! ### What a faulting range store leaves (R59, R207) -/

/-- Only memory changes. -/
theorem State.writeSome_frame (done : Nat → Bool) (s : State) (a k : Nat) (bs : List Byte) :
    s.writeSome done a k bs = { s with mem := (s.writeSome done a k bs).mem } := by
  induction bs generalizing s a k with
  | nil => rfl
  | cons b bs ih =>
    rw [State.writeSome, ih]

/-- The canonical form is kept. -/
theorem State.writeSome_wf (done : Nat → Bool) {s : State} (hs : s.mem.wf = true) (a k : Nat) (bs : List Byte) :
    (s.writeSome done a k bs).mem.wf = true := by
  induction bs generalizing s a k with
  | nil => exact hs
  | cons b bs ih =>
    rw [State.writeSome]
    apply ih
    dsimp only
    split
    · exact Memory.wf_poke hs (by tauto) b
    · exact hs

/-- Each in-bounds byte of the range is old or new, by the free choice; every other byte is as before. -/
theorem State.writeSome_peek (done : Nat → Bool) {s : State} (hs : s.mem.wf = true) (a k : Nat) (bs : List Byte) (b : Nat) :
    Memory.peek (s.writeSome done a k bs).mem b =
      if a ≤ b ∧ b < a + bs.length ∧ b < Config.memSize ∧ done (k + (b - a)) then bs.getD (b - a) 0
      else Memory.peek s.mem b := by
  induction bs generalizing s a k with
  | nil =>
    rw [State.writeSome, if_neg]
    simp only [List.length_nil]; omega
  | cons c bs ih =>
    rw [State.writeSome]
    have hs' : (if a < Config.memSize ∧ done k = true then Memory.poke s.mem a c else s.mem).wf = true := by
      split
      · exact Memory.wf_poke hs (by tauto) c
      · exact hs
    rw [ih (s := { s with mem := if a < Config.memSize ∧ done k = true then Memory.poke s.mem a c else s.mem }) hs']
    have hpeek : Memory.peek (if a < Config.memSize ∧ done k = true then Memory.poke s.mem a c else s.mem) b =
        if b = a ∧ a < Config.memSize ∧ done k = true then c else Memory.peek s.mem b := by
      by_cases hc : a < Config.memSize ∧ done k = true
      · simp only [if_pos hc, Memory.peek_poke hs]
        by_cases hb : b = a <;> simp [hb, hc]
      · simp only [if_neg hc]
        rw [if_neg (by tauto)]
    rw [hpeek]
    by_cases h1 : b = a
    · subst h1
      rw [if_neg (by omega)]
      simp
    · rw [if_neg (c := b = a ∧ _) (by tauto)]
      by_cases h2 : a + 1 ≤ b
      · obtain ⟨j, hj⟩ : ∃ j, b - a = j + 1 := ⟨b - a - 1, by omega⟩
        have hj' : b - (a + 1) = j := by omega
        have hk : k + 1 + j = k + (j + 1) := by omega
        simp only [hj, hj', hk, List.getD_cons_succ, List.length_cons]
        have e : (a + 1 ≤ b ∧ b < a + 1 + bs.length ∧ b < Config.memSize ∧ done (k + (j + 1)) = true) ↔
            (a ≤ b ∧ b < a + (bs.length + 1) ∧ b < Config.memSize ∧ done (k + (j + 1)) = true) := by
          constructor <;> rintro ⟨p, q, r⟩ <;> exact ⟨by omega, by omega, r⟩
        simp only [e]
      · rw [if_neg (by omega), if_neg (by omega)]

/-- The memory left depends on the memory found, and on nothing else of the state. -/
theorem State.writeSome_mem_congr (done : Nat → Bool) {s t : State} (h : s.mem = t.mem) (a k : Nat) (bs : List Byte) :
    (s.writeSome done a k bs).mem = (t.writeSome done a k bs).mem := by
  induction bs generalizing s t a k with
  | nil => exact h
  | cons b bs ih => exact ih (by rw [h]) _ _

end Sys2Proof.Machine
end

