-- ==== Sys2Proof/Laws/PerInstr.lean ====
section
/-! SUPPORT. Laws/PerInstr.lean: the family MatchesRow, one lemma per constructor: the encoded word of a well-formed instruction
meets the mask and the match of its row of the opcode map (30_encoding.md R74), which are written out here from that table and
not from the encoder. -/

namespace Sys2Proof

/-- The mask of an instruction's row (R74). -/
def Instr.rowMask : Instr → Word
  | .cls => 0xFFFF#16
  | .ret => 0xFFFF#16
  | .sys _ => 0xF000#16
  | .jp _ => 0xF000#16
  | .call _ => 0xF000#16
  | .seImm _ _ => 0xF000#16
  | .sneImm _ _ => 0xF000#16
  | .seReg _ _ => 0xF00F#16
  | .ldImm _ _ => 0xF000#16
  | .addImm _ _ => 0xF000#16
  | .ldReg _ _ => 0xF00F#16
  | .orReg _ _ => 0xF00F#16
  | .andReg _ _ => 0xF00F#16
  | .xorReg _ _ => 0xF00F#16
  | .addReg _ _ => 0xF00F#16
  | .sub _ _ => 0xF00F#16
  | .shr _ _ => 0xF00F#16
  | .subn _ _ => 0xF00F#16
  | .shl _ _ => 0xF00F#16
  | .sneReg _ _ => 0xF00F#16
  | .ldI _ => 0xF000#16
  | .jpV0 _ => 0xF000#16
  | .rnd _ _ => 0xF000#16
  | .drw _ _ _ => 0xF000#16
  | .skp _ => 0xF0FF#16
  | .sknp _ => 0xF0FF#16
  | .ldVxDT _ => 0xF0FF#16
  | .ldVxK _ => 0xF0FF#16
  | .ldDTVx _ => 0xF0FF#16
  | .ldSTVx _ => 0xF0FF#16
  | .addI _ => 0xF0FF#16
  | .ldF _ => 0xF0FF#16
  | .ldB _ => 0xF0FF#16
  | .ldMemVx _ => 0xF0FF#16
  | .ldVxMem _ => 0xF0FF#16

/-- The match of an instruction's row (R74). -/
def Instr.rowMatch : Instr → Word
  | .cls => 0x00E0#16
  | .ret => 0x00EE#16
  | .sys _ => 0x0000#16
  | .jp _ => 0x1000#16
  | .call _ => 0x2000#16
  | .seImm _ _ => 0x3000#16
  | .sneImm _ _ => 0x4000#16
  | .seReg _ _ => 0x5000#16
  | .ldImm _ _ => 0x6000#16
  | .addImm _ _ => 0x7000#16
  | .ldReg _ _ => 0x8000#16
  | .orReg _ _ => 0x8001#16
  | .andReg _ _ => 0x8002#16
  | .xorReg _ _ => 0x8003#16
  | .addReg _ _ => 0x8004#16
  | .sub _ _ => 0x8005#16
  | .shr _ _ => 0x8006#16
  | .subn _ _ => 0x8007#16
  | .shl _ _ => 0x800E#16
  | .sneReg _ _ => 0x9000#16
  | .ldI _ => 0xA000#16
  | .jpV0 _ => 0xB000#16
  | .rnd _ _ => 0xC000#16
  | .drw _ _ _ => 0xD000#16
  | .skp _ => 0xE09E#16
  | .sknp _ => 0xE0A1#16
  | .ldVxDT _ => 0xF007#16
  | .ldVxK _ => 0xF00A#16
  | .ldDTVx _ => 0xF015#16
  | .ldSTVx _ => 0xF018#16
  | .addI _ => 0xF01E#16
  | .ldF _ => 0xF029#16
  | .ldB _ => 0xF033#16
  | .ldMemVx _ => 0xF055#16
  | .ldVxMem _ => 0xF065#16

/-- The family: mask and match hold of the encoded word; for SYS, the row's own exception too (its words are neither CLS nor
RET). -/
def Laws.MatchesRow.Statement (i : Instr) : Prop :=
  i.wellFormed = true → encode i &&& i.rowMask = i.rowMatch ∧ ∀ nnn, i = .sys nnn → encode i ≠ 0x00E0#16 ∧ encode i ≠ 0x00EE#16

theorem Laws.MatchesRow.cls : Laws.MatchesRow.Statement .cls := fun _ => ⟨rfl, fun _ h => by cases h⟩

theorem Laws.MatchesRow.ret : Laws.MatchesRow.Statement .ret := fun _ => ⟨rfl, fun _ h => by cases h⟩

theorem Laws.MatchesRow.sys (nnn : Literal) : Laws.MatchesRow.Statement (.sys nnn) := by
  intro h
  refine ⟨by simp only [encode, Instr.rowMask, Instr.rowMatch, and_F000, fieldHi_encodeNNN]; rfl, fun _ _ => ⟨fun h' => ?_, fun h' => ?_⟩⟩ <;>
  · have e := congrArg fieldNNN h'
    simp only [encode, fieldNNN_encodeNNN] at e
    subst e
    exact absurd h (by decide)

theorem Laws.MatchesRow.jp (nnn : Literal) : Laws.MatchesRow.Statement (.jp nnn) := fun _ =>
  ⟨by simp only [encode, Instr.rowMask, Instr.rowMatch, and_F000, fieldHi_encodeNNN]; rfl, fun _ h => by cases h⟩

theorem Laws.MatchesRow.call (nnn : Literal) : Laws.MatchesRow.Statement (.call nnn) := fun _ =>
  ⟨by simp only [encode, Instr.rowMask, Instr.rowMatch, and_F000, fieldHi_encodeNNN]; rfl, fun _ h => by cases h⟩

theorem Laws.MatchesRow.seImm (x : Nibble) (kk : Byte) : Laws.MatchesRow.Statement (.seImm x kk) := fun _ =>
  ⟨by simp only [encode, Instr.rowMask, Instr.rowMatch, and_F000, fieldHi_encodeXKK]; rfl, fun _ h => by cases h⟩

theorem Laws.MatchesRow.sneImm (x : Nibble) (kk : Byte) : Laws.MatchesRow.Statement (.sneImm x kk) := fun _ =>
  ⟨by simp only [encode, Instr.rowMask, Instr.rowMatch, and_F000, fieldHi_encodeXKK]; rfl, fun _ h => by cases h⟩

theorem Laws.MatchesRow.seReg (x : Nibble) (y : Nibble) : Laws.MatchesRow.Statement (.seReg x y) := fun _ =>
  ⟨by simp only [encode, Instr.rowMask, Instr.rowMatch, and_F00F, fieldHi_encodeXYN, fieldN_encodeXYN]; rfl, fun _ h => by cases h⟩

theorem Laws.MatchesRow.ldImm (x : Nibble) (kk : Byte) : Laws.MatchesRow.Statement (.ldImm x kk) := fun _ =>
  ⟨by simp only [encode, Instr.rowMask, Instr.rowMatch, and_F000, fieldHi_encodeXKK]; rfl, fun _ h => by cases h⟩

theorem Laws.MatchesRow.addImm (x : Nibble) (kk : Byte) : Laws.MatchesRow.Statement (.addImm x kk) := fun _ =>
  ⟨by simp only [encode, Instr.rowMask, Instr.rowMatch, and_F000, fieldHi_encodeXKK]; rfl, fun _ h => by cases h⟩

theorem Laws.MatchesRow.ldReg (x : Nibble) (y : Nibble) : Laws.MatchesRow.Statement (.ldReg x y) := fun _ =>
  ⟨by simp only [encode, Instr.rowMask, Instr.rowMatch, and_F00F, fieldHi_encodeXYN, fieldN_encodeXYN]; rfl, fun _ h => by cases h⟩

theorem Laws.MatchesRow.orReg (x : Nibble) (y : Nibble) : Laws.MatchesRow.Statement (.orReg x y) := fun _ =>
  ⟨by simp only [encode, Instr.rowMask, Instr.rowMatch, and_F00F, fieldHi_encodeXYN, fieldN_encodeXYN]; rfl, fun _ h => by cases h⟩

theorem Laws.MatchesRow.andReg (x : Nibble) (y : Nibble) : Laws.MatchesRow.Statement (.andReg x y) := fun _ =>
  ⟨by simp only [encode, Instr.rowMask, Instr.rowMatch, and_F00F, fieldHi_encodeXYN, fieldN_encodeXYN]; rfl, fun _ h => by cases h⟩

theorem Laws.MatchesRow.xorReg (x : Nibble) (y : Nibble) : Laws.MatchesRow.Statement (.xorReg x y) := fun _ =>
  ⟨by simp only [encode, Instr.rowMask, Instr.rowMatch, and_F00F, fieldHi_encodeXYN, fieldN_encodeXYN]; rfl, fun _ h => by cases h⟩

theorem Laws.MatchesRow.addReg (x : Nibble) (y : Nibble) : Laws.MatchesRow.Statement (.addReg x y) := fun _ =>
  ⟨by simp only [encode, Instr.rowMask, Instr.rowMatch, and_F00F, fieldHi_encodeXYN, fieldN_encodeXYN]; rfl, fun _ h => by cases h⟩

theorem Laws.MatchesRow.sub (x : Nibble) (y : Nibble) : Laws.MatchesRow.Statement (.sub x y) := fun _ =>
  ⟨by simp only [encode, Instr.rowMask, Instr.rowMatch, and_F00F, fieldHi_encodeXYN, fieldN_encodeXYN]; rfl, fun _ h => by cases h⟩

theorem Laws.MatchesRow.shr (x : Nibble) (y : Nibble) : Laws.MatchesRow.Statement (.shr x y) := fun _ =>
  ⟨by simp only [encode, Instr.rowMask, Instr.rowMatch, and_F00F, fieldHi_encodeXYN, fieldN_encodeXYN]; rfl, fun _ h => by cases h⟩

theorem Laws.MatchesRow.subn (x : Nibble) (y : Nibble) : Laws.MatchesRow.Statement (.subn x y) := fun _ =>
  ⟨by simp only [encode, Instr.rowMask, Instr.rowMatch, and_F00F, fieldHi_encodeXYN, fieldN_encodeXYN]; rfl, fun _ h => by cases h⟩

theorem Laws.MatchesRow.shl (x : Nibble) (y : Nibble) : Laws.MatchesRow.Statement (.shl x y) := fun _ =>
  ⟨by simp only [encode, Instr.rowMask, Instr.rowMatch, and_F00F, fieldHi_encodeXYN, fieldN_encodeXYN]; rfl, fun _ h => by cases h⟩

theorem Laws.MatchesRow.sneReg (x : Nibble) (y : Nibble) : Laws.MatchesRow.Statement (.sneReg x y) := fun _ =>
  ⟨by simp only [encode, Instr.rowMask, Instr.rowMatch, and_F00F, fieldHi_encodeXYN, fieldN_encodeXYN]; rfl, fun _ h => by cases h⟩

theorem Laws.MatchesRow.ldI (nnn : Literal) : Laws.MatchesRow.Statement (.ldI nnn) := fun _ =>
  ⟨by simp only [encode, Instr.rowMask, Instr.rowMatch, and_F000, fieldHi_encodeNNN]; rfl, fun _ h => by cases h⟩

theorem Laws.MatchesRow.jpV0 (nnn : Literal) : Laws.MatchesRow.Statement (.jpV0 nnn) := fun _ =>
  ⟨by simp only [encode, Instr.rowMask, Instr.rowMatch, and_F000, fieldHi_encodeNNN]; rfl, fun _ h => by cases h⟩

theorem Laws.MatchesRow.rnd (x : Nibble) (kk : Byte) : Laws.MatchesRow.Statement (.rnd x kk) := fun _ =>
  ⟨by simp only [encode, Instr.rowMask, Instr.rowMatch, and_F000, fieldHi_encodeXKK]; rfl, fun _ h => by cases h⟩

theorem Laws.MatchesRow.drw (x : Nibble) (y : Nibble) (n : Nibble) : Laws.MatchesRow.Statement (.drw x y n) := fun _ =>
  ⟨by simp only [encode, Instr.rowMask, Instr.rowMatch, and_F000, fieldHi_encodeXYN]; rfl, fun _ h => by cases h⟩

theorem Laws.MatchesRow.skp (x : Nibble) : Laws.MatchesRow.Statement (.skp x) := fun _ =>
  ⟨by simp only [encode, Instr.rowMask, Instr.rowMatch, and_F0FF, fieldHi_encodeXKK, fieldKK_encodeXKK]; rfl, fun _ h => by cases h⟩

theorem Laws.MatchesRow.sknp (x : Nibble) : Laws.MatchesRow.Statement (.sknp x) := fun _ =>
  ⟨by simp only [encode, Instr.rowMask, Instr.rowMatch, and_F0FF, fieldHi_encodeXKK, fieldKK_encodeXKK]; rfl, fun _ h => by cases h⟩

theorem Laws.MatchesRow.ldVxDT (x : Nibble) : Laws.MatchesRow.Statement (.ldVxDT x) := fun _ =>
  ⟨by simp only [encode, Instr.rowMask, Instr.rowMatch, and_F0FF, fieldHi_encodeXKK, fieldKK_encodeXKK]; rfl, fun _ h => by cases h⟩

theorem Laws.MatchesRow.ldVxK (x : Nibble) : Laws.MatchesRow.Statement (.ldVxK x) := fun _ =>
  ⟨by simp only [encode, Instr.rowMask, Instr.rowMatch, and_F0FF, fieldHi_encodeXKK, fieldKK_encodeXKK]; rfl, fun _ h => by cases h⟩

theorem Laws.MatchesRow.ldDTVx (x : Nibble) : Laws.MatchesRow.Statement (.ldDTVx x) := fun _ =>
  ⟨by simp only [encode, Instr.rowMask, Instr.rowMatch, and_F0FF, fieldHi_encodeXKK, fieldKK_encodeXKK]; rfl, fun _ h => by cases h⟩

theorem Laws.MatchesRow.ldSTVx (x : Nibble) : Laws.MatchesRow.Statement (.ldSTVx x) := fun _ =>
  ⟨by simp only [encode, Instr.rowMask, Instr.rowMatch, and_F0FF, fieldHi_encodeXKK, fieldKK_encodeXKK]; rfl, fun _ h => by cases h⟩

theorem Laws.MatchesRow.addI (x : Nibble) : Laws.MatchesRow.Statement (.addI x) := fun _ =>
  ⟨by simp only [encode, Instr.rowMask, Instr.rowMatch, and_F0FF, fieldHi_encodeXKK, fieldKK_encodeXKK]; rfl, fun _ h => by cases h⟩

theorem Laws.MatchesRow.ldF (x : Nibble) : Laws.MatchesRow.Statement (.ldF x) := fun _ =>
  ⟨by simp only [encode, Instr.rowMask, Instr.rowMatch, and_F0FF, fieldHi_encodeXKK, fieldKK_encodeXKK]; rfl, fun _ h => by cases h⟩

theorem Laws.MatchesRow.ldB (x : Nibble) : Laws.MatchesRow.Statement (.ldB x) := fun _ =>
  ⟨by simp only [encode, Instr.rowMask, Instr.rowMatch, and_F0FF, fieldHi_encodeXKK, fieldKK_encodeXKK]; rfl, fun _ h => by cases h⟩

theorem Laws.MatchesRow.ldMemVx (x : Nibble) : Laws.MatchesRow.Statement (.ldMemVx x) := fun _ =>
  ⟨by simp only [encode, Instr.rowMask, Instr.rowMatch, and_F0FF, fieldHi_encodeXKK, fieldKK_encodeXKK]; rfl, fun _ h => by cases h⟩

theorem Laws.MatchesRow.ldVxMem (x : Nibble) : Laws.MatchesRow.Statement (.ldVxMem x) := fun _ =>
  ⟨by simp only [encode, Instr.rowMask, Instr.rowMatch, and_F0FF, fieldHi_encodeXKK, fieldKK_encodeXKK]; rfl, fun _ h => by cases h⟩

end Sys2Proof
end

