-- ==== Sys2Proof/Laws/Registers.lean ====
section
/-! SUPPORT. Laws/Registers.lean: the register-range operations, the call stack and the keypad, each once. -/

namespace Sys2Proof.Machine

/-! ### Register ranges (42_index_and_memory.md R146, R147) -/

/-- The bytes a range store takes from the registers. -/
theorem State.regs_eq (s : State) (r n : Nat) :
    s.regs r n = (List.range n).map fun k => s.getV (BitVec.ofNat 4 (r + k)) := by
  induction n generalizing r with
  | zero => rfl
  | succ n ih =>
    rw [State.regs, ih, List.range_succ_eq_map, List.map_cons, List.map_map]
    simp only [Nat.add_zero, List.cons.injEq, true_and]
    apply List.map_congr_left
    intro k _
    simp only [Function.comp_apply]
    congr 2; omega

@[simp] theorem State.length_regs (s : State) (r n : Nat) : (s.regs r n).length = n := by simp [State.regs_eq]

/-- Only registers change. -/
theorem State.loadRegs_frame (s : State) (r : Nat) (bs : List Byte) :
    s.loadRegs r bs = { s with V := (s.loadRegs r bs).V } := by
  induction bs generalizing s r with
  | nil => rfl
  | cons b bs ih => rw [State.loadRegs, ih]; rfl

theorem BitVec.eq_ofNat_four_iff (q : Nibble) {r : Nat} (h : r < 16) : q = BitVec.ofNat 4 r ↔ q.toNat = r := by
  rw [← BitVec.toNat_inj, BitVec.toNat_ofNat, Nat.mod_eq_of_lt h]

/-- Each register of the range takes its byte, every other register is as before. -/
theorem State.getV_loadRegs (s : State) (r : Nat) (bs : List Byte) (h : r + bs.length ≤ 16) (q : Nibble) :
    (s.loadRegs r bs).getV q = if r ≤ q.toNat ∧ q.toNat < r + bs.length then bs.getD (q.toNat - r) 0 else s.getV q := by
  induction bs generalizing s r with
  | nil => rw [State.loadRegs, if_neg]; simp only [List.length_nil]; omega
  | cons b bs ih =>
    simp only [List.length_cons] at h
    rw [State.loadRegs, ih _ _ (by omega), State.getV_setV]
    simp only [BitVec.eq_ofNat_four_iff q (show r < 16 by omega), List.length_cons]
    by_cases h1 : q.toNat = r
    · rw [if_neg (by omega), if_pos h1, if_pos (by omega), h1]; simp
    · by_cases h2 : r + 1 ≤ q.toNat ∧ q.toNat < r + 1 + bs.length
      · rw [if_pos h2, if_pos (by omega)]
        obtain ⟨j, hj⟩ : ∃ j, q.toNat - r = j + 1 := ⟨q.toNat - r - 1, by omega⟩
        rw [hj, List.getD_cons_succ]
        congr 1; omega
      · rw [if_neg h2, if_neg h1, if_neg (by omega)]

/-- A faulting range load changes only registers. -/
theorem State.loadSome_frame (done : Nat → Bool) (s : State) (a k n : Nat) :
    s.loadSome done a k n = { s with V := (s.loadSome done a k n).V } := by
  induction n generalizing s a k with
  | zero => rfl
  | succ n ih => rw [State.loadSome, ih]

/-- Each register of the range whose byte is in bounds is old or new, by the free choice; every other register is as before
(20_memory.md R59). -/
theorem State.getV_loadSome (done : Nat → Bool) (s : State) (a k n : Nat) (h : k + n ≤ 16) (q : Nibble) :
    (s.loadSome done a k n).getV q =
      if k ≤ q.toNat ∧ q.toNat < k + n ∧ a + (q.toNat - k) < Config.memSize ∧ done q.toNat then
        Memory.peek s.mem (a + (q.toNat - k))
      else s.getV q := by
  induction n generalizing s a k with
  | zero => rw [State.loadSome, if_neg]; omega
  | succ n ih =>
    rw [State.loadSome, ih _ _ _ (by omega)]
    have hget : State.getV { s with V := if a < Config.memSize ∧ done k = true then (s.setV (BitVec.ofNat 4 k) (Memory.peek s.mem a)).V else s.V } q =
        if q.toNat = k ∧ a < Config.memSize ∧ done k = true then Memory.peek s.mem a else s.getV q := by
      by_cases hc : a < Config.memSize ∧ done k = true
      · simp only [if_pos hc]
        show (s.setV _ _).getV q = _
        simp only [State.getV_setV, BitVec.eq_ofNat_four_iff q (show k < 16 by omega)]
        by_cases hb : q.toNat = k <;> simp [hb, hc]
      · simp only [if_neg hc]
        rw [if_neg (by tauto)]
    rw [hget]
    by_cases h1 : q.toNat = k
    · rw [if_neg (by omega)]
      simp only [h1, Nat.sub_self, Nat.add_zero, le_refl, true_and]
      simp
    · rw [if_neg (c := q.toNat = k ∧ _) (by tauto)]
      by_cases h2 : k + 1 ≤ q.toNat
      · have e : a + 1 + (q.toNat - (k + 1)) = a + (q.toNat - k) := by omega
        rw [e]
        have e2 : (k + 1 ≤ q.toNat ∧ q.toNat < k + 1 + n ∧ a + (q.toNat - k) < Config.memSize ∧ done q.toNat = true) ↔
            (k ≤ q.toNat ∧ q.toNat < k + (n + 1) ∧ a + (q.toNat - k) < Config.memSize ∧ done q.toNat = true) := by
          constructor <;> rintro ⟨p, q, r⟩ <;> exact ⟨by omega, by omega, r⟩
        simp only [e2]
      · rw [if_neg (by omega), if_neg (by omega)]

/-- The registers left depend on the registers found and the bytes, and on nothing else of the state. -/
theorem State.loadRegs_V_congr {s t : State} (h : s.V = t.V) (r : Nat) (bs : List Byte) : (s.loadRegs r bs).V = (t.loadRegs r bs).V := by
  induction bs generalizing s t r with
  | nil => exact h
  | cons b bs ih => exact ih (by simp only [State.setV, h]) _

/-- A faulting range load depends on the registers and memory found, and on nothing else of the state. -/
theorem State.loadSome_V_congr (done : Nat → Bool) {s t : State} (h : s.V = t.V) (hm : s.mem = t.mem) (a k n : Nat) :
    (s.loadSome done a k n).V = (t.loadSome done a k n).V := by
  induction n generalizing s t a k with
  | zero => exact h
  | succ n ih =>
    rw [State.loadSome, State.loadSome]
    apply ih
    · simp only [State.setV, h, hm]
    · exact hm

/-! ### Call stack (10_state.md R25) -/

/-- A push succeeds exactly below 16 entries, and then writes the entry at `sp` and counts it. -/
theorem State.pushCall_eq_some {s t : State} {addr : Word} (h : s.pushCall addr = some t) :
    s.sp.val < 16 ∧ t = { s with stack := t.stack, sp := t.sp } ∧ t.sp.val = s.sp.val + 1 ∧
      ∀ k : Fin 16, t.stack[k] = if k.val = s.sp.val then addr else s.stack[k] := by
  unfold State.pushCall at h
  split at h
  · rename_i hlt
    cases h
    refine ⟨hlt, rfl, rfl, fun k => ?_⟩
    simp only [Fin.getElem_fin, Vector.getElem_set, eq_comm]
  · cases h

theorem State.pushCall_eq_none {s : State} {addr : Word} : s.pushCall addr = none ↔ s.sp.val = 16 := by
  have := s.sp.isLt
  unfold State.pushCall
  split <;> rename_i h <;> simp only [Config.stackDepth] at h <;> simp <;> omega

/-- A pop succeeds exactly on a stack in use, answers its newest entry and counts it out. -/
theorem State.popCall_eq_some {s t : State} {addr : Word} (h : s.popCall = some (addr, t)) :
    s.sp.val ≠ 0 ∧ t = { s with sp := t.sp } ∧ t.sp.val + 1 = s.sp.val ∧
      ∀ k : Fin 16, k.val + 1 = s.sp.val → addr = s.stack[k] := by
  unfold State.popCall at h
  split at h
  · cases h
  · rename_i hne
    simp only [Option.some.injEq, Prod.mk.injEq] at h
    obtain ⟨rfl, rfl⟩ := h
    refine ⟨hne, rfl, by simp; omega, fun k hk => ?_⟩
    simp only [← hk, Nat.add_sub_cancel, Fin.getElem_fin]

theorem State.popCall_eq_none {s : State} : s.popCall = none ↔ s.sp.val = 0 := by
  unfold State.popCall
  split <;> simp_all

/-! ### Keypad (44_keypad_and_timers.md R172) -/

theorem mem_pressedKeys (key : Vector Bool 16) (k : Fin 16) : k ∈ pressedKeys key ↔ key[k] = true := by
  simp [pressedKeys]

/-- `KEY_PRIORITY` answers no key exactly when none is pressed. -/
theorem keyPriority_none (key : Vector Bool 16) : keyPriority key = none ↔ ∀ k : Fin 16, key[k] = false := by
  have hm := mem_pressedKeys key
  unfold keyPriority
  split
  · rename_i h
    simpa [h] using hm
  · rename_i k h
    have : key[k] = true := by rw [← hm]; simp [h]
    simp only [reduceCtorEq, false_iff, not_forall]
    exact ⟨k, by simpa using this⟩
  · rename_i k ks _ h
    have : key[k] = true := by rw [← hm]; simp [h]
    have hne : ¬ ∀ k : Fin 16, key[k] = false := fun hall => by rw [hall k] at this; cases this
    split <;> simpa using hne

/-- `KEY_PRIORITY` answers a pressed key. -/
theorem keyPriority_pressed {key : Vector Bool 16} {k : Fin 16} (h : keyPriority key = some k) : key[k] = true := by
  have hm := mem_pressedKeys key
  unfold keyPriority at h
  split at h
  · cases h
  · rename_i j hj
    cases h
    rw [← hm]; simp [hj]
  · rename_i j js _ hj
    split at h
    · cases h; assumption
    · cases h
      rw [← hm]; simp [hj]

/-- The poll of a waiting engine: nothing with no key pressed, else one register and the status (60_exceptions.md R202). -/
theorem State.pollKeypad_cases (s : State) :
    (keyPriority s.key = none ∧ s.pollKeypad = s) ∨
      ∃ k, keyPriority s.key = some k ∧ s.key[k] = true ∧
        s.pollKeypad = { s.setV s.waitReg (BitVec.ofNat 8 k.val) with status := .running } := by
  cases h : keyPriority s.key with
  | none => exact .inl ⟨rfl, by simp [State.pollKeypad, h]⟩
  | some k => exact .inr ⟨k, rfl, keyPriority_pressed h, by simp [State.pollKeypad, h]⟩

end Sys2Proof.Machine
end

