-- ==== Sys2Proof/Laws/Step.lean ====
section
/-! SUPPORT. Laws/Step.lean: what a step can do, said once (60_exceptions.md R200), and the two outcomes of a store at `I`. -/

namespace Sys2Proof.Machine

/-- A store at `I`: the whole range in bounds and only memory changes, or the error is taken (42_index_and_memory.md R143, R146). -/
theorem State.storeAtI_cases (s : State) (i : Instr) (ipc : Word) (bs : List Byte) :
    ((bs = [] ∨ s.I.toNat + bs.length ≤ Config.memSize) ∧
        s.storeAtI i ipc bs = { s with mem := Memory.pokeAll s.mem s.I.toNat bs }) ∨
      (¬ (bs = [] ∨ s.I.toNat + bs.length ≤ Config.memSize) ∧
        s.storeAtI i ipc bs =
          ((s.writeSome (Config.partialDone s.draws) s.I.toNat 0 bs).tickDraws).raise .addressingError ipc
            (some (encode i))) := by
  by_cases h : bs = [] ∨ s.I.toNat + bs.length ≤ Config.memSize
  · exact .inl ⟨h, by simp [State.storeAtI, State.writeRange_eq, State.dataAddress, h]⟩
  · exact .inr ⟨h, by simp [State.storeAtI, State.writeRange_eq, State.dataAddress, h]⟩

/-- Every instruction answers a next state: errors are taken, none is a stop. -/
theorem exec_next (i : Instr) (s : State) : ∃ t, exec i s = .next t := by
  cases i
  case ret => simp only [exec, execRet]; split <;> exact ⟨_, rfl⟩
  case call nnn => simp only [exec, execCall]; split <;> exact ⟨_, rfl⟩
  case drw x y n => simp only [exec, execDrw]; split <;> exact ⟨_, rfl⟩
  case ldVxMem x => simp only [exec, execLdVxMem]; split <;> exact ⟨_, rfl⟩
  all_goals exact ⟨_, rfl⟩

/-- What a step does, by the engine's state, the fetch and the decoding. -/
theorem step_cases {s t : State} (h : step s = .next t) :
    (s.status = .halted ∧ t = s) ∨
      (s.status = .waitingForKey ∧ t = s.pollKeypad) ∨
      (s.status = .running ∧ s.fetch = none ∧ t = s.fetchError) ∨
      (∃ w i, s.status = .running ∧ s.fetch = some w ∧ decodeWord w = .ok i ∧ exec i s = .next t) ∨
      (∃ w, s.status = .running ∧ s.fetch = some w ∧ decodeWord w = .error (.unknownOpcode w) ∧ t = s.advance) := by
  unfold step at h
  cases hs : s.status <;> simp only [hs] at h
  · cases hf : s.fetch with
    | none => simp only [hf] at h; cases h; simp
    | some w =>
      simp only [hf] at h
      cases hd : decodeWord w with
      | ok i => simp only [hd] at h; exact .inr (.inr (.inr (.inl ⟨w, i, rfl, rfl, hd, h⟩)))
      | error r =>
        have hr := decodeWord_error hd
        subst hr
        simp only [hd, execUnknown] at h
        cases h
        exact .inr (.inr (.inr (.inr ⟨w, rfl, rfl, hd, rfl⟩)))
  · cases h; simp
  · cases h; simp [State.haltedStep]

end Sys2Proof.Machine
end

