-- ==== Sys2Proof/Tests/Slice0.lean ====
section
/-! SUPPORT. Tests/Slice0.lean: the model's own tests. Expected values come from the spec's vectors (95_test_vectors.md; S and T
numbers), from its encodings (30_encoding.md R74) or from hand calculation from the rule named; each runs one step. After
them, a witness for the hypotheses of each statement that has some. -/

namespace Sys2Proof.Machine.Tests

open Sys2Proof Sys2Proof.Machine

/-- The state after one step on the word `w` placed at the pc. -/
def run (s : State) (w : Nat) : Option State :=
  match step (s.withFetchWord 16 w) with
  | .next t => some t
  | _ => none

/-- Reset with some registers set. -/
def regs (rs : List (Nibble × Byte)) : State := rs.foldl (fun s r => s.setV r.1 r.2) State.reset

/-- Reset with `I`, some bytes of memory and some registers set. -/
def atI (i : Word) (mem : Memory) (rs : List (Nibble × Byte)) : State := { regs rs with I := i, mem := mem }

/-- Reset with the pixel at column `x`, row `y` on. -/
def lit (s : State) (x y : Nat) : State := { s with fb := (Framebuffer.drawPixel x y true (s.fb, false)).1 }

/-- The fault record of a step on the word `w` fetched at 0x200. -/
def faultAt200 (k : ErrorKind) (w : Word) : Option FatalError := some { kind := k, pc := 0x200#16, opcode := some w }

/-! ### Well-formedness: the terms it refuses -/

theorem test_wellFormed_sys : (Instr.sys 0x123#12).wellFormed = true := by decide

theorem test_illFormed_sys_0E0 : (Instr.sys 0x0E0#12).wellFormed = false := by decide

theorem test_illFormed_sys_0EE : (Instr.sys 0x0EE#12).wellFormed = false := by decide

/-! ### Decoding and encoding: one word per instruction, written out from its encoding in R74 -/

theorem test_decode_cls : decodeWord 0x00E0#16 = .ok .cls ∧ encode .cls = 0x00E0#16 := by decide

theorem test_decode_ret : decodeWord 0x00EE#16 = .ok .ret ∧ encode .ret = 0x00EE#16 := by decide

theorem test_decode_sys : decodeWord 0x00E1#16 = .ok (.sys 0x0E1#12) ∧ encode (.sys 0x0E1#12) = 0x00E1#16 := by decide

theorem test_decode_jp : decodeWord 0x1EEE#16 = .ok (.jp 0xEEE#12) ∧ encode (.jp 0xEEE#12) = 0x1EEE#16 := by decide

theorem test_decode_call : decodeWord 0x2ABC#16 = .ok (.call 0xABC#12) ∧ encode (.call 0xABC#12) = 0x2ABC#16 := by decide

theorem test_decode_seImm : decodeWord 0x311B#16 = .ok (.seImm 0x1#4 0x1B#8) ∧ encode (.seImm 0x1#4 0x1B#8) = 0x311B#16 := by decide

theorem test_decode_sneImm : decodeWord 0x4201#16 = .ok (.sneImm 0x2#4 0x01#8) ∧ encode (.sneImm 0x2#4 0x01#8) = 0x4201#16 := by decide

theorem test_decode_seReg : decodeWord 0x5120#16 = .ok (.seReg 0x1#4 0x2#4) ∧ encode (.seReg 0x1#4 0x2#4) = 0x5120#16 := by decide

theorem test_decode_ldImm : decodeWord 0x6A2F#16 = .ok (.ldImm 0xA#4 0x2F#8) ∧ encode (.ldImm 0xA#4 0x2F#8) = 0x6A2F#16 := by decide

theorem test_decode_addImm : decodeWord 0x71FF#16 = .ok (.addImm 0x1#4 0xFF#8) ∧ encode (.addImm 0x1#4 0xFF#8) = 0x71FF#16 := by decide

theorem test_decode_ldReg : decodeWord 0x8230#16 = .ok (.ldReg 0x2#4 0x3#4) ∧ encode (.ldReg 0x2#4 0x3#4) = 0x8230#16 := by decide

theorem test_decode_orReg : decodeWord 0x8231#16 = .ok (.orReg 0x2#4 0x3#4) ∧ encode (.orReg 0x2#4 0x3#4) = 0x8231#16 := by decide

theorem test_decode_andReg : decodeWord 0x8232#16 = .ok (.andReg 0x2#4 0x3#4) ∧ encode (.andReg 0x2#4 0x3#4) = 0x8232#16 := by decide

theorem test_decode_xorReg : decodeWord 0x8233#16 = .ok (.xorReg 0x2#4 0x3#4) ∧ encode (.xorReg 0x2#4 0x3#4) = 0x8233#16 := by decide

theorem test_decode_addReg : decodeWord 0x8F14#16 = .ok (.addReg 0xF#4 0x1#4) ∧ encode (.addReg 0xF#4 0x1#4) = 0x8F14#16 := by decide

theorem test_decode_sub : decodeWord 0x8015#16 = .ok (.sub 0x0#4 0x1#4) ∧ encode (.sub 0x0#4 0x1#4) = 0x8015#16 := by decide

theorem test_decode_shr : decodeWord 0x8016#16 = .ok (.shr 0x0#4 0x1#4) ∧ encode (.shr 0x0#4 0x1#4) = 0x8016#16 := by decide

theorem test_decode_subn : decodeWord 0x8017#16 = .ok (.subn 0x0#4 0x1#4) ∧ encode (.subn 0x0#4 0x1#4) = 0x8017#16 := by decide

theorem test_decode_shl : decodeWord 0x80FE#16 = .ok (.shl 0x0#4 0xF#4) ∧ encode (.shl 0x0#4 0xF#4) = 0x80FE#16 := by decide

theorem test_decode_sneReg : decodeWord 0x9120#16 = .ok (.sneReg 0x1#4 0x2#4) ∧ encode (.sneReg 0x1#4 0x2#4) = 0x9120#16 := by decide

theorem test_decode_ldI : decodeWord 0xA300#16 = .ok (.ldI 0x300#12) ∧ encode (.ldI 0x300#12) = 0xA300#16 := by decide

theorem test_decode_jpV0 : decodeWord 0xBFFF#16 = .ok (.jpV0 0xFFF#12) ∧ encode (.jpV0 0xFFF#12) = 0xBFFF#16 := by decide

theorem test_decode_rnd : decodeWord 0xC30F#16 = .ok (.rnd 0x3#4 0x0F#8) ∧ encode (.rnd 0x3#4 0x0F#8) = 0xC30F#16 := by decide

theorem test_decode_drw : decodeWord 0xD012#16 = .ok (.drw 0x0#4 0x1#4 0x2#4) ∧ encode (.drw 0x0#4 0x1#4 0x2#4) = 0xD012#16 := by decide

theorem test_decode_skp : decodeWord 0xE29E#16 = .ok (.skp 0x2#4) ∧ encode (.skp 0x2#4) = 0xE29E#16 := by decide

theorem test_decode_sknp : decodeWord 0xE2A1#16 = .ok (.sknp 0x2#4) ∧ encode (.sknp 0x2#4) = 0xE2A1#16 := by decide

theorem test_decode_ldVxDT : decodeWord 0xF107#16 = .ok (.ldVxDT 0x1#4) ∧ encode (.ldVxDT 0x1#4) = 0xF107#16 := by decide

theorem test_decode_ldVxK : decodeWord 0xF20A#16 = .ok (.ldVxK 0x2#4) ∧ encode (.ldVxK 0x2#4) = 0xF20A#16 := by decide

theorem test_decode_ldDTVx : decodeWord 0xF015#16 = .ok (.ldDTVx 0x0#4) ∧ encode (.ldDTVx 0x0#4) = 0xF015#16 := by decide

theorem test_decode_ldSTVx : decodeWord 0xF018#16 = .ok (.ldSTVx 0x0#4) ∧ encode (.ldSTVx 0x0#4) = 0xF018#16 := by decide

theorem test_decode_addI : decodeWord 0xF21E#16 = .ok (.addI 0x2#4) ∧ encode (.addI 0x2#4) = 0xF21E#16 := by decide

theorem test_decode_ldF : decodeWord 0xF029#16 = .ok (.ldF 0x0#4) ∧ encode (.ldF 0x0#4) = 0xF029#16 := by decide

theorem test_decode_ldB : decodeWord 0xF033#16 = .ok (.ldB 0x0#4) ∧ encode (.ldB 0x0#4) = 0xF033#16 := by decide

theorem test_decode_ldMemVx : decodeWord 0xFF55#16 = .ok (.ldMemVx 0xF#4) ∧ encode (.ldMemVx 0xF#4) = 0xFF55#16 := by decide

theorem test_decode_ldVxMem : decodeWord 0xF265#16 = .ok (.ldVxMem 0x2#4) ∧ encode (.ldVxMem 0x2#4) = 0xF265#16 := by decide

/-- T113 to T116 and T16: words of the UNKNOWN class are rejected by name. -/
theorem test_decode_unknown :
    [0x8128#16, 0xE000#16, 0xF0FF#16, 0x9121#16, 0x5121#16].map decodeWord =
      [0x8128#16, 0xE000#16, 0xF0FF#16, 0x9121#16, 0x5121#16].map fun w => .error (.unknownOpcode w) := by decide

/-- R54: the byte at the lower address is the high byte. -/
theorem test_decode_bytes :
    decodeBytes [0x80#8, 0x14#8, 0x99#8] = .ok (.addReg 0x0#4 0x1#4, [0x99#8]) ∧ decodeBytes [0x80#8] = .error .truncated := by decide

theorem test_decode_table_word : decodeTableWord 16 0x00EE = some .ret ∧ decodeTableWord 16 0x8008 = none := by decide

/-! ### Control flow -/

/-- T4. -/
theorem test_ret : (run { State.reset with sp := 1, stack := Vector.replicate 16 0x202#16, pc := 0x300#16 } 0x00EE).map (fun t => (t.pc, t.sp)) = some (0x202#16, 0) := by decide

/-- T5. -/
theorem test_ret_underflow : (run State.reset 0x00EE).map (fun t => (t.status, t.fault, t.pc, t.sp)) = some (.halted, faultAt200 .stackUnderflow 0x00EE#16, 0x202#16, 0) := by decide

/-- S2. -/
theorem test_jp : (run State.reset 0x1EEE).map (fun t => t.pc) = some 0x0EEE#16 := by decide

/-- T1. -/
theorem test_jp_odd : (run State.reset 0x1201).map (fun t => t.pc) = some 0x0201#16 := by decide

/-- T3. -/
theorem test_call : (run State.reset 0x2300).map (fun t => (t.stack[0], t.sp, t.pc)) = some (0x0202#16, 1, 0x300#16) := by decide

/-- T6. -/
theorem test_call_overflow : (run { State.reset with sp := 16 } 0x2300).map (fun t => (t.status, t.fault, t.pc, t.sp)) = some (.halted, faultAt200 .stackOverflow 0x2300#16, 0x202#16, 16) := by decide

/-- T8. -/
theorem test_jpV0_unreduced : (run (regs [(0x0#4, 0xFF#8)]) 0xBFFF).map (fun t => t.pc) = some 0x10FE#16 := by decide

/-- T7. -/
theorem test_jpV0 : (run (regs [(0x0#4, 0x04#8)]) 0xB300).map (fun t => t.pc) = some 0x304#16 := by decide

/-- S4. -/
theorem test_seImm_taken : (run (regs [(0x1#4, 0x1B#8)]) 0x311B).map (fun t => t.pc) = some 0x204#16 := by decide

/-- S4. -/
theorem test_seImm_not_taken : (run (regs [(0x1#4, 0x1B#8)]) 0x311C).map (fun t => t.pc) = some 0x202#16 := by decide

/-- T9. -/
theorem test_sneImm_taken : (run State.reset 0x4201).map (fun t => t.pc) = some 0x204#16 := by decide

/-- T10. -/
theorem test_sneImm_not_taken : (run State.reset 0x4200).map (fun t => t.pc) = some 0x202#16 := by decide

/-- T11. -/
theorem test_seReg_taken : (run (regs [(0x1#4, 7#8), (0x2#4, 7#8)]) 0x5120).map (fun t => t.pc) = some 0x204#16 := by decide

/-- T12. -/
theorem test_seReg_not_taken : (run (regs [(0x1#4, 7#8), (0x2#4, 8#8)]) 0x5120).map (fun t => t.pc) = some 0x202#16 := by decide

/-- T14. -/
theorem test_sneReg_taken : (run (regs [(0x1#4, 7#8), (0x2#4, 8#8)]) 0x9120).map (fun t => t.pc) = some 0x204#16 := by decide

/-- T15. -/
theorem test_sneReg_same : (run (regs [(0x1#4, 7#8)]) 0x9110).map (fun t => t.pc) = some 0x202#16 := by decide

/-! ### Load, arithmetic, logic, shift, random -/

/-- T20. -/
theorem test_ldImm : (run State.reset 0x6A2F).map (fun t => (t.getV 0xA#4, t.pc)) = some (0x2F#8, 0x202#16) := by decide

/-- T22: no flag. -/
theorem test_addImm_wraps : (run (regs [(0x0#4, 0xFF#8), (0xF#4, 0x55#8)]) 0x7001).map (fun t => (t.getV 0x0#4, t.getV 0xF#4)) = some (0x00#8, 0x55#8) := by decide

/-- T23: VF as an ordinary destination. -/
theorem test_addImm_flag_register : (run (regs [(0xF#4, 0xFF#8)]) 0x7F01).map (fun t => t.getV 0xF#4) = some 0x00#8 := by decide

/-- T24. -/
theorem test_ldReg : (run (regs [(0x3#4, 0x77#8)]) 0x8230).map (fun t => (t.getV 0x2#4, t.getV 0x3#4)) = some (0x77#8, 0x77#8) := by decide

/-- T25. -/
theorem test_orReg : (run (regs [(0x0#4, 0xF0#8), (0x1#4, 0x0F#8), (0xF#4, 0x55#8)]) 0x8011).map (fun t => (t.getV 0x0#4, t.getV 0xF#4)) = some (0xFF#8, 0x55#8) := by decide

/-- T26. -/
theorem test_andReg : (run (regs [(0x0#4, 0xF3#8), (0x1#4, 0x3F#8), (0xF#4, 0x55#8)]) 0x8012).map (fun t => (t.getV 0x0#4, t.getV 0xF#4)) = some (0x33#8, 0x55#8) := by decide

/-- T27. -/
theorem test_xorReg : (run (regs [(0x0#4, 0xFF#8), (0x1#4, 0x0F#8), (0xF#4, 0x55#8)]) 0x8013).map (fun t => (t.getV 0x0#4, t.getV 0xF#4)) = some (0xF0#8, 0x55#8) := by decide

/-- S7. -/
theorem test_addReg_carry : (run (regs [(0x0#4, 0xFF#8), (0x1#4, 0x01#8)]) 0x8014).map (fun t => (t.getV 0x0#4, t.getV 0xF#4)) = some (0x00#8, 0x01#8) := by decide

/-- T30: the sum stays. -/
theorem test_addReg_into_flag : (run (regs [(0xF#4, 0xFF#8), (0x1#4, 0x01#8)]) 0x8F14).map (fun t => t.getV 0xF#4) = some 0x00#8 := by decide

/-- T33. -/
theorem test_sub_borrow : (run (regs [(0x0#4, 0x03#8), (0x1#4, 0x05#8), (0xF#4, 1#8)]) 0x8015).map (fun t => (t.getV 0x0#4, t.getV 0xF#4)) = some (0xFE#8, 0x00#8) := by decide

/-- T34: strictly greater. -/
theorem test_sub_equal : (run (regs [(0x0#4, 0x07#8), (0x1#4, 0x07#8), (0xF#4, 1#8)]) 0x8015).map (fun t => (t.getV 0x0#4, t.getV 0xF#4)) = some (0x00#8, 0x00#8) := by decide

/-- T36. -/
theorem test_subn : (run (regs [(0x0#4, 0x03#8), (0x1#4, 0x05#8)]) 0x8017).map (fun t => (t.getV 0x0#4, t.getV 0xF#4)) = some (0x02#8, 0x01#8) := by decide

/-- T38. -/
theorem test_subn_equal : (run (regs [(0x0#4, 0x07#8), (0x1#4, 0x07#8), (0xF#4, 1#8)]) 0x8017).map (fun t => (t.getV 0x0#4, t.getV 0xF#4)) = some (0x00#8, 0x00#8) := by decide

/-- T41. -/
theorem test_shr_ignores_vy : (run (regs [(0x0#4, 0x04#8), (0x1#4, 0xFF#8), (0xF#4, 1#8)]) 0x8016).map (fun t => (t.getV 0x0#4, t.getV 0x1#4, t.getV 0xF#4)) = some (0x02#8, 0xFF#8, 0x00#8) := by decide

/-- T42: the result stays. -/
theorem test_shr_into_flag : (run (regs [(0xF#4, 0x02#8)]) 0x8F06).map (fun t => t.getV 0xF#4) = some 0x01#8 := by decide

/-- T43. -/
theorem test_shl : (run (regs [(0x0#4, 0x81#8)]) 0x800E).map (fun t => (t.getV 0x0#4, t.getV 0xF#4)) = some (0x02#8, 0x01#8) := by decide

/-- T44. -/
theorem test_shl_no_carry : (run (regs [(0x0#4, 0x40#8), (0xF#4, 1#8)]) 0x800E).map (fun t => (t.getV 0x0#4, t.getV 0xF#4)) = some (0x80#8, 0x00#8) := by decide

/-- T47: for every draw, next state with the draw counted. -/
theorem test_rnd_mask_zero : (run (regs [(0x3#4, 0xFF#8)]) 0xC300).map (fun t => (t.pc, t.draws)) = some (0x202#16, 1) := by decide

/-! ### Index register and memory -/

/-- T50. -/
theorem test_ldI : (run { State.reset with I := 0xFFFF#16 } 0xA300).map (fun t => t.I) = some 0x300#16 := by decide

/-- T52: no flag, no error. -/
theorem test_addI : (run (atI 0x0FFF#16 [] [(0x0#4, 0x01#8), (0xF#4, 0x55#8)]) 0xF01E).map (fun t => (t.I, t.getV 0xF#4, t.status)) = some (0x1000#16, 0x55#8, .running) := by decide

/-- T53. -/
theorem test_addI_wraps : (run (atI 0xFFFF#16 [] [(0x0#4, 0x01#8)]) 0xF01E).map (fun t => t.I) = some 0x0000#16 := by decide

/-- T55: FONT_BASE + 1275, no mask, whatever FONT_BASE is. -/
theorem test_ldF : (run (regs [(0x0#4, 0xFF#8)]) 0xF029).map (fun t => t.I) = some (BitVec.ofNat 16 (Config.fontBase.val + 1275)) := rfl

/-- S6. -/
theorem test_ldB : (run (atI 0x300#16 [] [(0x0#4, 0xFE#8)]) 0xF033).map (fun t => (t.memRead 0x300, t.memRead 0x301, t.memRead 0x302, t.I)) = some (some 2#8, some 5#8, some 4#8, 0x300#16) := by decide

/-- T61. -/
theorem test_ldB_fault : (run (atI 0xFFE#16 [] [(0x0#4, 123#8)]) 0xF033).map (fun t => (t.status, t.fault, t.pc)) = some (.halted, faultAt200 .addressingError 0xF033#16, 0x202#16) := by decide

/-- T62. -/
theorem test_ldMemVx : (run (atI 0x208#16 [] [(0x0#4, 0x12#8), (0x1#4, 0x0A#8), (0x2#4, 0x99#8)]) 0xF155).map (fun t => (t.memRead 0x208, t.memRead 0x209, t.memRead 0x20A, t.I)) = some (some 0x12#8, some 0x0A#8, some 0#8, 0x208#16) := by decide

/-- T64. -/
theorem test_ldMemVx_fault : (run { State.reset with I := 0xFF1#16 } 0xFF55).map (fun t => (t.status, t.fault)) = some (.halted, faultAt200 .addressingError 0xFF55#16) := by decide

/-- T65. -/
theorem test_ldVxMem : (run (atI 0x300#16 [(0x300, 2#8), (0x301, 5#8), (0x302, 4#8), (0x303, 9#8)] []) 0xF265).map (fun t => (t.getV 0x0#4, t.getV 0x1#4, t.getV 0x2#4, t.getV 0x3#4)) = some (2#8, 5#8, 4#8, 0#8) := by decide

/-- T67. -/
theorem test_ldVxMem_fault : (run (atI 0x1000#16 [] [(0x0#4, 0x33#8)]) 0xF065).map (fun t => (t.status, t.fault, t.getV 0x0#4)) = some (.halted, faultAt200 .addressingError 0xF065#16, 0x33#8) := by decide

/-! ### Graphics -/

/-- T70. -/
theorem test_cls : (run (lit (lit (regs [(0xF#4, 5#8)]) 5 5) 63 31) 0x00E0).map (fun t => (t.fb.pixel 5 5, t.fb.pixel 63 31, t.getV 0xF#4)) = some (false, false, 5#8) := by decide

/-- T72: clipped on both axes. -/
theorem test_drw_corner : (run (atI 0x300#16 [(0x300, 0xC0#8), (0x301, 0xFF#8)] [(0x0#4, 62#8), (0x1#4, 31#8)]) 0xD012).map (fun t => (t.fb.pixel 61 31, t.fb.pixel 62 31, t.fb.pixel 63 31, t.fb.pixel 0 0, t.getV 0xF#4)) = some (false, true, true, false, 0#8) := by decide

/-- T78. -/
theorem test_drw_collision : (run (lit (atI 0x300#16 [(0x300, 0xC0#8)] []) 0 0) 0xD001).map (fun t => (t.fb.pixel 0 0, t.fb.pixel 1 0, t.fb.pixel 2 0, t.getV 0xF#4)) = some (false, true, false, 1#8) := by decide

/-- Hand calculation from R161, second draw by T71: the sprite 0x80 over one lit pixel turns it off with collision; drawn again on
the blank grid that leaves, it has none (log entry 27). -/
theorem test_second_draw_flag :
    let first := Framebuffer.drawRows 0 0 [0x80#8] ((lit State.reset 0 0).fb, false)
    first.2 = true ∧ first.1.pixel 0 0 = false ∧ (Framebuffer.drawRows 0 0 [0x80#8] (first.1, false)).2 = false := by decide

/-! ### Keypad and timers -/

/-- T94. -/
theorem test_skp_low_nibble : (run ((regs [(0x2#4, 0x17#8)]).setKey 0x7#4 true) 0xE29E).map (fun t => t.pc) = some 0x204#16 := by decide

/-- T91. -/
theorem test_skp_not_pressed : (run (regs [(0x2#4, 7#8)]) 0xE29E).map (fun t => t.pc) = some 0x202#16 := by decide

/-- T92. -/
theorem test_sknp_not_pressed : (run (regs [(0x2#4, 7#8)]) 0xE2A1).map (fun t => t.pc) = some 0x204#16 := by decide

/-- T93. -/
theorem test_sknp_pressed : (run ((regs [(0x2#4, 7#8)]).setKey 0x7#4 true) 0xE2A1).map (fun t => t.pc) = some 0x202#16 := by decide

/-- T95. -/
theorem test_ldVxDT : (run { State.reset with DT := 3#8 } 0xF107).map (fun t => (t.getV 0x1#4, t.DT)) = some (3#8, 3#8) := by decide

/-- T96. -/
theorem test_ldDTVx : (run (regs [(0x0#4, 3#8)]) 0xF015).map (fun t => (t.DT, t.ST)) = some (3#8, 0#8) := by decide

/-- T97. -/
theorem test_ldSTVx : (run (regs [(0x0#4, 0x10#8)]) 0xF018).map (fun t => (t.DT, t.ST)) = some (0#8, 16#8) := by decide

/-- wait for key, step 1. -/
theorem test_ldVxK : (run State.reset 0xF20A).map (fun t => (t.status, t.waitReg, t.pc, t.getV 0x2#4)) = some (.waitingForKey, 0x2#4, 0x202#16, 0#8) := by decide

/-- Wait for key, step 4: the poll loads the key and fetches nothing. -/
theorem test_ldVxK_poll :
    (match step { State.reset.setKey 0x7#4 true with status := .waitingForKey, waitReg := 0x2#4, pc := 0x202#16 } with
      | .next t => some (t.getV 0x2#4, t.status, t.pc)
      | _ => none) = some (7#8, .running, 0x202#16) := by decide

/-- T98, T99. -/
theorem test_timerTick :
    ({ State.reset with DT := 1#8 }.timerTick.DT, { State.reset with DT := 1#8 }.timerTick.ST,
      { State.reset with ST := 255#8 }.timerTick.ST) = (0#8, 0#8, 254#8) := by decide

/-- T100: ticks act in every status. -/
theorem test_timerTick_halted : { State.reset with status := .halted, DT := 2#8 }.timerTick.DT = 1#8 := by decide

/-! ### SYS, unknown words, fetch errors, memory, load -/

/-- T112: SYS, not CLS. -/
theorem test_sys : (run (lit State.reset 5 5) 0x00E1).map (fun t => (t.pc, t.fb.pixel 5 5)) = some (0x202#16, true) := by decide

/-- T113. -/
theorem test_unknown : (run (regs [(0x1#4, 1#8), (0x2#4, 2#8)]) 0x8128).map (fun t => (t.pc, t.getV 0x1#4, t.getV 0xF#4, t.status)) = some (0x202#16, 1#8, 0#8, .running) := by decide

/-- T113: the advisory. -/
theorem test_unknown_reply :
    stepReply (State.reset.withFetchWord 16 0x8128) = .unknownOpcode 0x200#16 0x8128#16 ∧
      stepReply (State.reset.withFetchWord 16 0x0000) = .ok := by decide

/-- T18: the second byte would be at 0x1000. -/
theorem test_fetch_error :
    step { State.reset with pc := 0xFFF#16 } =
      .next { State.reset with
        pc := 0xFFF#16, status := .halted, fault := some { kind := .addressingError, pc := 0xFFF#16, opcode := none } } := rfl

/-- R30: reset memory is canonical, and zero above the reserved area. -/
theorem test_reset_memory : State.reset.mem.wf = true ∧ State.reset.memRead 0x200 = some 0#8 ∧ State.reset.memRead 0x1000 = none := by
  decide

/-- Writing the boot content back removes the cell: equal memories are equal lists. -/
theorem test_memory_canonical : Memory.poke (Memory.poke [] 0x300 7#8) 0x300 0#8 = [] := by decide

/-- S1. -/
theorem test_load :
    (match load [0x12#8, 0x00#8] State.reset with
      | .next t => some (t.memRead 0x200, t.memRead 0x201)
      | _ => none) = some (some 0x12#8, some 0x00#8) := by decide

/-- S1: the largest program fits and one byte more does not. -/
theorem test_load_limit :
    load (List.replicate 0xE01 0#8) State.reset = .fault .programTooLarge ∧
      (∃ t, load (List.replicate 0xE00 0#8) State.reset = .next t) :=
  ⟨if_pos (by rw [List.length_replicate]; decide), _, if_neg (by rw [List.length_replicate]; decide)⟩

/-! ### Witnesses: for each statement with hypotheses, states and operands that meet them, at the boundary of each clause -/

/-- Running at the last legal fetch address. -/
def lastFetch : State := { State.reset with pc := 0xFFE#16 }

/-- Halted on a fault of the instruction at 0x200. -/
def haltedState : State := { State.reset with status := .halted, fault := faultAt200 .stackUnderflow 0x00EE#16 }

/-- Waiting for a key. -/
def waitingState : State := { State.reset with status := .waitingForKey, waitReg := 0x2#4 }

/-- The largest pc and return addresses of the flow bounds, the stack full. -/
def flowEdge : State := { State.reset with pc := 0x10FE#16, sp := 16, stack := Vector.replicate 16 0x1000#16 }

/-- A state in which each register write, store and draw can be seen. -/
def busy : State := { lit (atI 0x300#16 [(0x300, 0xFF#8)] [(0x0#4, 1#8)]) 1 0 with DT := 9#8, ST := 9#8, sp := 1 }

theorem witness_DecodeEncodeRoundTrip :
    (Instr.sys 0x0E1#12).wellFormed = true ∧ (Instr.sys 0x000#12).wellFormed = true ∧ (Instr.ldVxMem 0xF#4).wellFormed = true := by decide

theorem witness_EncodeDecodeRoundTrip : decodeWord 0xFF65#16 = .ok (.ldVxMem 0xF#4) := by decide

/-- The largest word of each masked row. -/
theorem witness_DecodeFollowsOpcodeMap :
    0x0FFF#16 &&& 0xF000#16 = 0x0000#16 ∧
    0x1FFF#16 &&& 0xF000#16 = 0x1000#16 ∧
    0x2FFF#16 &&& 0xF000#16 = 0x2000#16 ∧
    0x3FFF#16 &&& 0xF000#16 = 0x3000#16 ∧
    0x4FFF#16 &&& 0xF000#16 = 0x4000#16 ∧
    0x5FF0#16 &&& 0xF00F#16 = 0x5000#16 ∧
    0x6FFF#16 &&& 0xF000#16 = 0x6000#16 ∧
    0x7FFF#16 &&& 0xF000#16 = 0x7000#16 ∧
    0x8FF0#16 &&& 0xF00F#16 = 0x8000#16 ∧
    0x8FF1#16 &&& 0xF00F#16 = 0x8001#16 ∧
    0x8FF2#16 &&& 0xF00F#16 = 0x8002#16 ∧
    0x8FF3#16 &&& 0xF00F#16 = 0x8003#16 ∧
    0x8FF4#16 &&& 0xF00F#16 = 0x8004#16 ∧
    0x8FF5#16 &&& 0xF00F#16 = 0x8005#16 ∧
    0x8FF6#16 &&& 0xF00F#16 = 0x8006#16 ∧
    0x8FF7#16 &&& 0xF00F#16 = 0x8007#16 ∧
    0x8FFE#16 &&& 0xF00F#16 = 0x800E#16 ∧
    0x9FF0#16 &&& 0xF00F#16 = 0x9000#16 ∧
    0xAFFF#16 &&& 0xF000#16 = 0xA000#16 ∧
    0xBFFF#16 &&& 0xF000#16 = 0xB000#16 ∧
    0xCFFF#16 &&& 0xF000#16 = 0xC000#16 ∧
    0xDFFF#16 &&& 0xF000#16 = 0xD000#16 ∧
    0xEF9E#16 &&& 0xF0FF#16 = 0xE09E#16 ∧
    0xEFA1#16 &&& 0xF0FF#16 = 0xE0A1#16 ∧
    0xFF07#16 &&& 0xF0FF#16 = 0xF007#16 ∧
    0xFF0A#16 &&& 0xF0FF#16 = 0xF00A#16 ∧
    0xFF15#16 &&& 0xF0FF#16 = 0xF015#16 ∧
    0xFF18#16 &&& 0xF0FF#16 = 0xF018#16 ∧
    0xFF1E#16 &&& 0xF0FF#16 = 0xF01E#16 ∧
    0xFF29#16 &&& 0xF0FF#16 = 0xF029#16 ∧
    0xFF33#16 &&& 0xF0FF#16 = 0xF033#16 ∧
    0xFF55#16 &&& 0xF0FF#16 = 0xF055#16 ∧
    0xFF65#16 &&& 0xF0FF#16 = 0xF065#16 ∧
    0x0FFF#16 ≠ 0x00E0#16 ∧ 0x0FFF#16 ≠ 0x00EE#16 := by decide

theorem witness_StepRunsDecodedInstruction :
    (lastFetch.withFetchWord 16 0x6A2F).status = .running ∧
    (lastFetch.withFetchWord 16 0x6A2F).memRead 0xFFE = some 0x6A#8 ∧ (lastFetch.withFetchWord 16 0x6A2F).memRead 0xFFF = some 0x2F#8 ∧
    decodeBytes [0x6A#8, 0x2F#8] = .ok (.ldImm 0xA#4 0x2F#8, []) := by decide

theorem witness_UnknownWordIsNoOp :
    (lastFetch.withFetchWord 16 0x8128).status = .running ∧ (lastFetch.withFetchWord 16 0x8128).fetch = some 0x8128#16 ∧
    decodeWord 0x8128#16 = .error (.unknownOpcode 0x8128#16) := by decide

theorem witness_FetchErrorHalts :
    { State.reset with pc := 0xFFF#16 }.status = .running ∧ { State.reset with pc := 0xFFF#16 }.pc.toNat > 0xFFE ∧
    { State.reset with pc := 0xFFFF#16 }.pc.toNat > 0xFFE := by decide

theorem witness_HaltedStepChangesNothing :
    haltedState.status = .halted ∧ haltedState.fault = faultAt200 .stackUnderflow 0x00EE#16 := by decide

theorem witness_WaitingStepPollsKeypad :
    waitingState.status = .waitingForKey ∧ (∀ k : Fin 16, waitingState.key[k] = false) ∧
    (waitingState.setKey 0xF#4 true).status = .waitingForKey ∧ (∃ k : Fin 16, (waitingState.setKey 0xF#4 true).key[k] = true) := by decide

/-- Each outcome of `State.raises`: none, and the three kinds at the edge of their conditions. -/
theorem witness_StepRaisesExactlyAsListed :
    State.reset.status = .running ∧ lastFetch.raises = none ∧
    { State.reset with pc := 0xFFF#16 }.raises = some .addressingError ∧
    (State.reset.withFetchWord 16 0x00EE).raises = some .stackUnderflow ∧
    ({ State.reset with sp := 1 }.withFetchWord 16 0x00EE).raises = none ∧
    ({ State.reset with sp := 15 }.withFetchWord 16 0x2300).raises = none ∧
    ({ State.reset with sp := 16 }.withFetchWord 16 0x2300).raises = some .stackOverflow ∧
    ((atI 0xFFF#16 [] []).withFetchWord 16 0xD001).raises = none ∧
    ((atI 0xFFF#16 [] []).withFetchWord 16 0xD002).raises = some .addressingError ∧
    ((atI 0xFFFF#16 [] []).withFetchWord 16 0xD000).raises = none ∧
    ((atI 0xFFD#16 [] []).withFetchWord 16 0xF033).raises = none ∧
    ((atI 0xFFE#16 [] []).withFetchWord 16 0xF033).raises = some .addressingError ∧
    ((atI 0xFF0#16 [] []).withFetchWord 16 0xFF55).raises = none ∧
    ((atI 0xFF1#16 [] []).withFetchWord 16 0xFF55).raises = some .addressingError ∧
    ((atI 0xFFF#16 [] []).withFetchWord 16 0xF065).raises = none ∧
    ((atI 0x1000#16 [] []).withFetchWord 16 0xF065).raises = some .addressingError := by decide

theorem witness_SelfJumpLeavesStateUnchanged :
    (State.reset.withFetchWord 16 0x1200).status = .running ∧
    (State.reset.withFetchWord 16 0x1200).pc = (0x200#12 : Literal).setWidth 16 ∧
    (State.reset.withFetchWord 16 0x1200).fetch = some (encode (.jp 0x200#12)) := by decide

theorem witness_StepKeepsMemoryForm : busy.MemInv ∧ ∃ t, step busy = .next t := ⟨rfl, _, rfl⟩

theorem witness_StepKeepsFlowBounds : flowEdge.FlowInv ∧ ∃ t, step flowEdge = .next t :=
  ⟨⟨by decide, by decide⟩, _, rfl⟩

theorem witness_StepKeepsFaultRecord : haltedState.FaultInv ∧ ∃ t, step haltedState = .next t :=
  ⟨⟨by decide, fun f h => by cases h; decide⟩, _, rfl⟩

theorem flowEdge_inv : flowEdge.Inv :=
  ⟨rfl, ⟨by decide, by decide⟩, ⟨by decide, fun _ h => by cases h⟩⟩

/-- Every one of the six events happens to a machine that meets the invariant. -/
theorem witness_EventsKeepInvariant :
    ∀ e ∈ [Event.reset, .load [0x12#8, 0x00#8], .step, .timerTick, .setKey 0xF#4 true, .readDisplay],
      ∃ τ r, Session.event e { machine := flowEdge, phase := .fresh } = .next (τ, r) := by
  intro e he
  simp only [List.mem_cons, List.not_mem_nil, or_false] at he
  rcases he with rfl | rfl | rfl | rfl | rfl | rfl <;> exact ⟨_, _, rfl⟩

theorem witness_EveryScheduleKeepsInvariant :
    ∃ τ, Session.boot.run [.load [0x12#8, 0x00#8], .step, .timerTick, .setKey 0xF#4 true, .readDisplay, .step, .reset] = .next τ :=
  ⟨_, rfl⟩

theorem witness_CallPushesOrOverflows :
    State.reset.sp.val < 16 ∧ { State.reset with sp := 15 }.sp.val < 16 ∧ { State.reset with sp := 16 }.sp.val = 16 := by decide

theorem witness_ReturnPopsOrUnderflows :
    State.reset.sp.val = 0 ∧ { State.reset with sp := 1 }.sp.val ≠ 0 ∧ { State.reset with sp := 16 }.sp.val ≠ 0 := by decide

theorem witness_CallReturnRoundTrip : { State.reset with sp := 15 }.sp.val < 16 := by decide

theorem witness_BcdStoresThreeDigits : busy.MemInv ∧ (atI 0xFFD#16 [] []).MemInv ∧ (atI 0xFFD#16 [] []).I.toNat + 2 ≤ 0xFFF :=
  ⟨rfl, rfl, by decide⟩

theorem witness_RangeStoreWritesRegisters :
    (atI 0xFF0#16 [] []).MemInv ∧ (atI 0xFF0#16 [] []).I.toNat + (0xF#4 : Nibble).toNat ≤ 0xFFF := ⟨rfl, by decide⟩

/-- The premises of the range load at its edge, and of both clauses on its registers. -/
theorem witness_RangeLoadReadsMemory :
    (atI 0xFFE#16 [] []).I.toNat + (0x1#4 : Nibble).toNat ≤ 0xFFF ∧ (0x1#4 : Nibble).toNat ≤ (0x1#4 : Nibble).toNat ∧
    (0x1#4 : Nibble).toNat < (0x2#4 : Nibble).toNat := by decide

theorem witness_OutOfRangeStoresFault :
    (atI 0xFFE#16 [] []).MemInv ∧ (atI 0xFFE#16 [] []).I.toNat + 2 > 0xFFF ∧
    (atI 0xFFF#16 [] []).I.toNat + (0x1#4 : Nibble).toNat > 0xFFF ∧
    (atI 0x1000#16 [] []).I.toNat + (0x0#4 : Nibble).toNat > 0xFFF := ⟨rfl, by decide⟩

theorem witness_OutOfRangeReadsFault :
    (atI 0x1000#16 [] []).I.toNat + (0x0#4 : Nibble).toNat > 0xFFF ∧ 1 ≤ (0x2#4 : Nibble).toNat ∧
    (atI 0xFFF#16 [] []).I.toNat + (0x2#4 : Nibble).toNat - 1 > 0xFFF := by decide

theorem witness_StoredByteIsReadBack : busy.MemInv ∧ (0xFFF : Nat) ≤ 0xFFF ∧ (0x1000 : Nat) > 0xFFF := ⟨rfl, by decide⟩

theorem witness_StoreIsSeenByNextFetch :
    { atI 0xFFE#16 [] [] with pc := 0xFFC#16 }.MemInv ∧ 1 ≤ (0x1#4 : Nibble).toNat ∧
    { atI 0xFFE#16 [] [] with pc := 0xFFC#16 }.I.toNat = { atI 0xFFE#16 [] [] with pc := 0xFFC#16 }.pc.toNat + 2 ∧
    { atI 0xFFE#16 [] [] with pc := 0xFFC#16 }.I.toNat + (0x1#4 : Nibble).toNat ≤ 0xFFF := ⟨rfl, by decide⟩

/-- The last legal sprite row; no row at an address out of range. -/
theorem witness_DrawXorsClippedSprite :
    (atI 0xFFF#16 [] []).I.toNat + (0x1#4 : Nibble).toNat - 1 ≤ 0xFFF ∧ (0x0#4 : Nibble).toNat = 0 := by decide

/-- A second draw at the same anchor; in the first case the first draw left VF 1, in the second 0. -/
theorem witness_DrawTwiceRestoresFramebuffer :
    (∃ t u, exec (.drw 0x1#4 0x1#4 0x1#4) busy = .next t ∧ t.getV 0x1#4 = busy.getV 0x1#4 ∧
      exec (.drw 0x1#4 0x1#4 0x1#4) t = .next u ∧ t.getV 0xF#4 = 1#8) ∧
    (∃ t u, exec (.drw 0x0#4 0x0#4 0x1#4) busy = .next t ∧ t.getV 0x0#4 = busy.getV 0x0#4 ∧
      exec (.drw 0x0#4 0x0#4 0x1#4) t = .next u ∧ t.getV 0xF#4 = 0#8) :=
  ⟨⟨_, _, rfl, by decide, rfl, by decide⟩, ⟨_, _, rfl, by decide, rfl, by decide⟩⟩

theorem witness_DrawStaysInItsRectangle :
    ∃ t, exec (.drw 0x1#4 0x1#4 0x1#4) busy = .next t ∧ t.fb.pixel 7 0 ≠ busy.fb.pixel 7 0 := ⟨_, rfl, by decide⟩

theorem witness_KeySkipsTestSelectedKey : (7 : Fin 16).val = ((regs [(0x2#4, 0x17#8)]).getV 0x2#4).toNat % 16 := by decide

theorem witness_KeyWaitLoadsPressedKey :
    (waitingState.setKey 0xF#4 true).status = .waitingForKey ∧ (waitingState.setKey 0xF#4 true).waitReg = 0x2#4 ∧
    ∀ j : Fin 16, (waitingState.setKey 0xF#4 true).key[j] = true ↔ j = 15 := by decide

/-- Each clause of the access matrix has an instruction that changes the state it names. -/
theorem witness_AccessMatrixHolds :
    (∃ t, exec (.ldImm 0x2#4 5#8) busy = .next t ∧ t.V ≠ busy.V) ∧
    (∃ t, exec (.ldVxK 0x2#4) busy = .next t ∧ t.status ≠ busy.status ∧ t.waitReg ≠ busy.waitReg) ∧
    (∃ t, exec (.ldB 0x0#4) busy = .next t ∧ t.mem ≠ busy.mem) ∧
    (∃ t, exec .cls busy = .next t ∧ t.fb.pixel 1 0 ≠ busy.fb.pixel 1 0) ∧
    (∃ t, exec (.ldDTVx 0x0#4) busy = .next t ∧ t.DT ≠ busy.DT) ∧
    (∃ t, exec (.ldSTVx 0x0#4) busy = .next t ∧ t.ST ≠ busy.ST) ∧
    (∃ t, exec (.ldI 0x400#12) busy = .next t ∧ t.I ≠ busy.I) ∧
    (∃ t, exec (.call 0x400#12) busy = .next t ∧ t.sp ≠ busy.sp ∧ t.stack ≠ busy.stack ∧ t.pc ≠ busy.pc + 2#16) ∧
    (∃ t, exec (.rnd 0x0#4 0#8) busy = .next t ∧ t.draws ≠ busy.draws) :=
  ⟨⟨_, rfl, by decide⟩, ⟨_, rfl, by decide⟩, ⟨_, rfl, by decide⟩, ⟨_, rfl, by decide⟩, ⟨_, rfl, by decide⟩, ⟨_, rfl, by decide⟩,
    ⟨_, rfl, by decide⟩, ⟨_, rfl, by decide⟩, ⟨_, rfl, by decide⟩⟩

theorem witness_FlagHasOnlyListedWriters :
    ∃ t, exec (.addReg 0x0#4 0x1#4) (regs [(0x0#4, 0xFF#8), (0x1#4, 1#8)]) = .next t ∧
      t.getV 0xF#4 ≠ (regs [(0x0#4, 0xFF#8), (0x1#4, 1#8)]).getV 0xF#4 := ⟨_, rfl, by decide⟩

theorem witness_SoundTimerIsNeverRead : ∃ t, step busy = .next t := ⟨_, rfl⟩

/-- Another stack, equal below `sp` and different from there on. -/
theorem witness_UnusedStackEntriesAreInvisible :
    (∀ k : Fin 16, k.val < busy.sp.val → ((Vector.replicate 16 0xFFF#16).set 0 0#16)[k] = busy.stack[k]) ∧ ∃ t, step busy = .next t :=
  ⟨by decide, _, rfl⟩

theorem witness_WaitRegisterIsInvisibleUnlessWaiting :
    busy.status ≠ .waitingForKey ∧ (∃ t, step busy = .next t) ∧
      ∃ t, step (State.reset.withFetchWord 16 0xF20A) = .next t ∧ t.status = .waitingForKey :=
  ⟨by decide, ⟨_, rfl⟩, ⟨_, rfl, by decide⟩⟩

theorem witness_HaltIsLeftOnlyByReset :
    haltedState.status = .halted ∧
      ∀ e ∈ [Event.step, .timerTick, .setKey 0x0#4 true, .readDisplay, .load [0x12#8]],
        e ≠ .reset ∧ ∃ τ r, Session.event e { machine := haltedState, phase := .fresh } = .next (τ, r) := by
  refine ⟨rfl, fun e he => ?_⟩
  simp only [List.mem_cons, List.not_mem_nil, or_false] at he
  rcases he with rfl | rfl | rfl | rfl | rfl <;> exact ⟨by simp, _, _, rfl⟩

theorem witness_LoadPlacesProgramOnce :
    Session.boot.machine.MemInv ∧ Session.boot.phase = .fresh ∧ (List.replicate 0xE00 0#8).length ≤ 0xE00 ∧
    (List.replicate 0xE01 0#8).length > 0xE00 ∧ { Session.boot with phase := .loaded }.phase ≠ .fresh ∧
    { Session.boot with phase := .loadFailed }.phase = .loadFailed ∧ { Session.boot with phase := .stepped }.phase ≠ .loadFailed ∧
    Event.timerTick ≠ .reset ∧ Event.timerTick ≠ .step ∧ (∀ cs, Event.timerTick ≠ .load cs) ∧
    ∃ τ r, { Session.boot with phase := .loaded }.event .timerTick = .next (τ, r) :=
  ⟨rfl, rfl, by rw [List.length_replicate], by rw [List.length_replicate]; decide, by decide, rfl, by decide, by decide, by decide,
    (fun _ h => by cases h), _, _, rfl⟩

end Sys2Proof.Machine.Tests
end

section
/-! Proofs of the control-flow statements (40_control_flow.md): JP and the four register skips. -/

namespace Sys2Proof.Machine

/-! ### What the instructions do, through the state's operations -/

theorem exec_jp (nnn : Literal) (s : State) : exec (.jp nnn) s = .next (s.advance.jump (literalWord nnn)) := rfl

theorem exec_seImm (x : Nibble) (kk : Byte) (s : State) :
    exec (.seImm x kk) s = .next (s.advance.skipIf (s.getV x == kk)) := rfl

theorem exec_sneImm (x : Nibble) (kk : Byte) (s : State) :
    exec (.sneImm x kk) s = .next (s.advance.skipIf (s.getV x != kk)) := rfl

theorem exec_seReg (x y : Nibble) (s : State) :
    exec (.seReg x y) s = .next (s.advance.skipIf (s.getV x == s.getV y)) := rfl

theorem exec_sneReg (x y : Nibble) (s : State) :
    exec (.sneReg x y) s = .next (s.advance.skipIf (s.getV x != s.getV y)) := rfl

/-- A literal is at most 0xFFF, so widening it to an address keeps its value (R101). -/
theorem literalWord_toNat (nnn : Literal) : (literalWord nnn).toNat = nnn.toNat :=
  BitVec.toNat_setWidth_of_le (by decide)

/-- The fetch advance and a taken skip, each modulo 65536, add up to 4 modulo 65536 (R104 to R107). -/
theorem State.skipIf_advance (s : State) (c : Bool) :
    s.advance.skipIf c = { s with pc := if c then s.pc + 4#16 else s.pc + 2#16 } := by
  have net : s.pc + 2#16 + 2#16 = s.pc + 4#16 := BitVec.add_assoc ..
  cases c with
  | false => rfl
  | true => rw [State.skipIf_eq, State.advance_pc, net]; rfl

/-! ### The statements -/

/-- Settles O21: the jump overwrites the pc of the fetch advance with the literal. -/
theorem jumpSetsPc : Obligations.JumpSetsPc := fun nnn s =>
  ⟨s.advance.jump (literalWord nnn), exec_jp nnn s, rfl, literalWord_toNat nnn⟩

/-- Settles O26: all four skips are one conditional skip after the fetch advance, under their four conditions. -/
theorem skipsAdvanceByCondition : Obligations.SkipsAdvanceByCondition := by
  intro x y kk s
  refine ⟨?seImm, ?sneImm, ?seReg, ?sneReg⟩
  case seImm => simp only [exec_seImm, State.skipIf_advance, beq_iff_eq]
  case sneImm => simp only [exec_sneImm, State.skipIf_advance, bne_iff_ne]
  case seReg => simp only [exec_seReg, State.skipIf_advance, beq_iff_eq]
  case sneReg => simp only [exec_sneReg, State.skipIf_advance, bne_iff_ne]

end Sys2Proof.Machine
end

section
/-! Proofs of the load and add-immediate statements (41_load_arithmetic_logic.md). -/

namespace Sys2Proof.Machine

/-! ### What the instructions do, through the state's operations -/

theorem exec_ldImm (x : Nibble) (kk : Byte) (s : State) : exec (.ldImm x kk) s = .next (s.advance.setV x kk) := rfl

theorem exec_ldReg (x y : Nibble) (s : State) : exec (.ldReg x y) s = .next (s.advance.setV x (s.getV y)) := rfl

theorem exec_addImm (x : Nibble) (kk : Byte) (s : State) :
    exec (.addImm x kk) s = .next (s.advance.setV x (s.getV x + kk)) := rfl

/-- One register written after the fetch advance is the whole effect: the shape shared by the loads, the immediate addition and
the logic instructions (R20, R23). -/
theorem WritesRegister.of_exec {i : Instr} {s : State} {x : Nibble} {v : Byte}
    (h : exec i s = .next (s.advance.setV x v)) : WritesRegister i s x v :=
  ⟨s.advance.setV x v, h, rfl, fun r => by rw [State.getV_setV, State.getV_advance]⟩

/-- The sum of two bytes is the sum of their values modulo 256 (R121, R127, R133). -/
theorem byte_add_eq_ofNat_mod (a b : Byte) : a + b = BitVec.ofNat 8 ((a.toNat + b.toNat) % 256) := by
  apply BitVec.eq_of_toNat_eq
  rw [BitVec.toNat_add, BitVec.toNat_ofNat, Nat.mod_mod]

/-! ### The statements -/

/-- Settles O28: the only write after the fetch advance is the wrapped sum, into Vx. -/
theorem addImmediateWrapsWithoutFlag : Obligations.AddImmediateWrapsWithoutFlag := by
  intro x kk s
  rw [← byte_add_eq_ofNat_mod]
  exact .of_exec (exec_addImm x kk s)

/-- Settles O27: either load's only write after the fetch advance is its operand, into Vx. -/
theorem loadsWriteOneRegister : Obligations.LoadsWriteOneRegister := fun x y kk s =>
  ⟨.of_exec (exec_ldImm x kk s), .of_exec (exec_ldReg x y s)⟩

end Sys2Proof.Machine
end

section
/-! Proof of the index-literal statement (42_index_and_memory.md): LD I. -/

namespace Sys2Proof.Machine

/-! ### What the instruction does -/

theorem exec_ldI (nnn : Literal) (s : State) :
    exec (.ldI nnn) s = .next { s.advance with I := literalWord nnn } := rfl

/-! ### The statement -/

/-- Settles O34: the only write after the fetch advance is the literal widened to 16 bits, into I. -/
theorem setIndexLoadsLiteral : Obligations.SetIndexLoadsLiteral := fun nnn s =>
  ⟨{ s.advance with I := literalWord nnn }, exec_ldI nnn s, rfl, literalWord_toNat nnn⟩

end Sys2Proof.Machine
end

section
/-! Proof of the clear-screen statement (43_graphics.md): CLS. -/

namespace Sys2Proof.Machine

/-! ### What the instruction does -/

theorem exec_cls (s : State) : exec .cls s = .next { s.advance with fb := Framebuffer.blank } := rfl

/-! ### The statement -/

/-- Settles O43: the only write after the fetch advance is the blank framebuffer, whose every pixel is off. -/
theorem clearTurnsEveryPixelOff : Obligations.ClearTurnsEveryPixelOff := by
  intro s
  refine ⟨{ s.advance with fb := Framebuffer.blank }, exec_cls s, rfl, fun x y hx hy => ?_⟩
  exact (Framebuffer.pixel_eq Framebuffer.blank hx hy).symm.trans (Framebuffer.pixel_blank x y)

end Sys2Proof.Machine
end

section
/-! Proof of the unknown-word statement (45_sys_and_unknown.md): the no-op with its advisory. -/

namespace Sys2Proof.Machine

/-! ### What a step on a rejected word does and returns -/

/-- A Running step on a word the decoder rejects is the fetch advance alone (R191). -/
theorem step_of_decode_error {s : State} {w : Word} {r : DecodeReject} (hrun : s.status = .running)
    (hfetch : s.fetch = some w) (hdec : decodeWord w = .error r) : step s = .next s.advance := by
  simp only [step, hrun, hfetch, hdec, execUnknown]

/-- A Running engine about to fetch a word the decoder rejects has that word to report (R206). -/
theorem State.advisory_of_decode_error {s : State} {w : Word} {r : DecodeReject} (hrun : s.status = .running)
    (hfetch : s.fetch = some w) (hdec : decodeWord w = .error r) : s.advisory = some w := by
  simp only [State.advisory, hrun, hfetch, hdec]

/-- A step that leaves the engine Running returns the advisory of the state it was taken from (R200, R206). -/
theorem stepReply_of_advisory {s t : State} {w : Word} (hstep : step s = .next t) (hrun : t.status = .running)
    (hadv : s.advisory = some w) : stepReply s = .unknownOpcode s.pc w := by
  simp only [stepReply, hstep, hrun, hadv]

/-! ### The statement -/

/-- Settles O7: the step is the fetch advance alone, which keeps the engine Running, so the reply is the advisory. -/
theorem unknownWordIsNoOp : Obligations.UnknownWordIsNoOp := by
  intro s w hrun hfetch hdec
  have hstep : step s = .next s.advance := step_of_decode_error hrun hfetch hdec
  have hadv : s.advisory = some w := State.advisory_of_decode_error hrun hfetch hdec
  exact ⟨hstep, stepReply_of_advisory hstep hrun hadv⟩

end Sys2Proof.Machine
end

section
/-! Proofs of the encoding and decoding statements (30_encoding.md). -/

namespace Sys2Proof

/-! ### Decoding an encoding (R72, R74) -/

/-- A literal other than `0E0` and `0EE` is not lost in the words of CLS and RET (R190). -/
theorem decodeWord_encode_sys {nnn : Literal} (h : nnn.sysLegal = true) :
    decodeWord (encode (.sys nnn)) = .ok (.sys nnn) := by
  simp only [Literal.sysLegal, Bool.and_eq_true, bne_iff_ne, ne_eq] at h
  obtain ⟨notCls, notRet⟩ := h
  have literal_of_word : ∀ v : Word, encodeNNN 0x0#4 nnn = v → nnn = fieldNNN v := by
    rintro v rfl
    exact (fieldNNN_encodeNNN _ _).symm
  have hCls : encodeNNN 0x0#4 nnn ≠ 0x00E0#16 := fun e => notCls (literal_of_word _ e)
  have hRet : encodeNNN 0x0#4 nnn ≠ 0x00EE#16 := fun e => notRet (literal_of_word _ e)
  simp [encode, decodeWord, hCls, hRet]

/-- The word of a well-formed instruction decodes to it: its fields are read back, and they select its row. -/
theorem decodeWord_encode {i : Instr} (hi : i.wellFormed = true) : decodeWord (encode i) = .ok i := by
  cases i
  case cls => rfl
  case ret => rfl
  case sys nnn => exact decodeWord_encode_sys hi
  all_goals simp [encode, decodeWord, decodeAlu, decodeMisc]

/-- Settles O1: the two bytes are the word's own, and the word's fields are the instruction's. -/
theorem decodeEncodeRoundTrip : Obligations.DecodeEncodeRoundTrip := by
  intro i hi
  refine ⟨decodeWord_encode hi, fun rest => ?_⟩
  have bytes : encodeBytes i ++ rest = highByte (encode i) :: lowByte (encode i) :: rest := rfl
  rw [bytes, decodeBytes_wordBytes, decodeWord_encode hi]
  rfl

/-! ### Encoding what was decoded (R74) -/

section
variable {w : Word} {k : Nat} (hHi : (fieldHi w).toNat = k)
include hHi

theorem encodeNNN_of_hi : encodeNNN (BitVec.ofNat 4 k) (fieldNNN w) = w := by
  rw [← hHi, BitVec.ofNat_toNat, BitVec.setWidth_eq, encodeNNN_fields]

theorem encodeXKK_of_hi : encodeXKK (BitVec.ofNat 4 k) (fieldX w) (fieldKK w) = w := by
  rw [← hHi, BitVec.ofNat_toNat, BitVec.setWidth_eq, encodeXKK_fields]

theorem encodeXYN_of_hi : encodeXYN (BitVec.ofNat 4 k) (fieldX w) (fieldY w) (fieldN w) = w := by
  rw [← hHi, BitVec.ofNat_toNat, BitVec.setWidth_eq, encodeXYN_fields]

theorem encodeXKK_of_hi_kk {c : Nat} (hKK : (fieldKK w).toNat = c) :
    encodeXKK (BitVec.ofNat 4 k) (fieldX w) (BitVec.ofNat 8 c) = w := by
  have h := encodeXKK_of_hi hHi
  rwa [← BitVec.setWidth_eq (fieldKK w), ← BitVec.ofNat_toNat, hKK] at h

theorem encodeXYN_of_hi_n {c : Nat} (hN : (fieldN w).toNat = c) :
    encodeXYN (BitVec.ofNat 4 k) (fieldX w) (fieldY w) (BitVec.ofNat 4 c) = w := by
  have h := encodeXYN_of_hi hHi
  rwa [← BitVec.setWidth_eq (fieldN w), ← BitVec.ofNat_toNat, hN] at h

end

/-- What the low nibble selects under the high nibble 8 is the encoding's own low nibble. -/
theorem encode_of_decodeAlu {w : Word} {i : Instr} (hHi : (fieldHi w).toNat = 0x8) (h : decodeAlu w = .ok i) :
    i.wellFormed = true ∧ encode i = w := by
  unfold decodeAlu at h
  split at h
  case h_10 => cases h
  all_goals
    rename_i hN
    cases h
    exact ⟨rfl, encodeXYN_of_hi_n hHi hN⟩

/-- What the low byte selects under the high nibble F is the encoding's own low byte. -/
theorem encode_of_decodeMisc {w : Word} {i : Instr} (hHi : (fieldHi w).toNat = 0xF) (h : decodeMisc w = .ok i) :
    i.wellFormed = true ∧ encode i = w := by
  unfold decodeMisc at h
  split at h
  case h_10 => cases h
  all_goals
    rename_i hKK
    cases h
    exact ⟨rfl, encodeXKK_of_hi_kk hHi hKK⟩

/-- The literal of a word of the row 0nnn that is neither CLS nor RET is one SYS can carry (R190). -/
theorem sysLegal_of_word {w : Word} (hHi : (fieldHi w).toNat = 0x0) (hCls : w ≠ 0x00E0#16) (hRet : w ≠ 0x00EE#16) :
    (fieldNNN w).sysLegal = true := by
  have word_of_literal : ∀ nnn, fieldNNN w = nnn → w = encodeNNN 0x0#4 nnn := by
    rintro nnn rfl
    exact (encodeNNN_of_hi hHi).symm
  simp only [Literal.sysLegal, Bool.and_eq_true, bne_iff_ne, ne_eq]
  exact ⟨fun e => hCls (word_of_literal _ e), fun e => hRet (word_of_literal _ e)⟩

/-- Settles O2: by the decoder's rows in order, the high nibble rising; each row gives the fields of the word, and the row's fixed
bits are the word's own. -/
theorem encodeDecodeRoundTrip : Obligations.EncodeDecodeRoundTrip := by
  intro w i h
  unfold decodeWord at h
  split at h
  case h_1 hHi =>
    split_ifs at h with hCls hRet
    · cases h; exact ⟨rfl, hCls.symm⟩
    · cases h; exact ⟨rfl, hRet.symm⟩
    · cases h; exact ⟨sysLegal_of_word hHi hCls hRet, encodeNNN_of_hi hHi⟩
  case h_2 hHi | h_3 hHi | h_11 hHi | h_12 hHi => cases h; exact ⟨rfl, encodeNNN_of_hi hHi⟩
  case h_4 hHi | h_5 hHi | h_7 hHi | h_8 hHi | h_13 hHi => cases h; exact ⟨rfl, encodeXKK_of_hi hHi⟩
  case h_6 hHi | h_10 hHi =>
    split_ifs at h with hN
    cases h; exact ⟨rfl, encodeXYN_of_hi_n hHi (congrArg BitVec.toNat hN)⟩
  case h_9 hHi => exact encode_of_decodeAlu hHi h
  case h_14 hHi => cases h; exact ⟨rfl, encodeXYN_of_hi hHi⟩
  case h_15 hHi =>
    split_ifs at h with hSkp hSknp
    · cases h; exact ⟨rfl, encodeXKK_of_hi_kk hHi (congrArg BitVec.toNat hSkp)⟩
    · cases h; exact ⟨rfl, encodeXKK_of_hi_kk hHi (congrArg BitVec.toNat hSknp)⟩
  case h_16 hHi => exact encode_of_decodeMisc hHi h
  case h_17 => cases h

/-! ### The opcode map, row by row (R74) -/

/-- Settles O3: a row's mask pins down the high nibble, with the low nibble or the low byte where the row fixes one, and these
are what the decoder dispatches on. -/
theorem decodeFollowsOpcodeMap : Obligations.DecodeFollowsOpcodeMap := by
  intro w
  refine ⟨?cls, ?ret, ?sys, ?jp, ?call, ?seImm, ?sneImm, ?seReg, ?ldImm, ?addImm, ?ldReg, ?orReg, ?andReg, ?xorReg, ?addReg, ?sub,
    ?shr, ?subn, ?shl, ?sneReg, ?ldI, ?jpV0, ?rnd, ?drw, ?skp, ?sknp, ?ldVxDT, ?ldVxK, ?ldDTVx, ?ldSTVx, ?addI, ?ldF, ?ldB,
    ?ldMemVx, ?ldVxMem⟩
  case cls => rintro rfl; rfl
  case ret => rintro rfl; rfl
  case sys =>
    intro h hCls hRet
    have hHi := fieldHi_of_and_F000 h
    simp only [decodeWord, hHi, hCls, hRet, if_false]
    rfl
  case jp | call | seImm | sneImm | ldImm | addImm | ldI | jpV0 | rnd | drw =>
    intro h
    have hHi := fieldHi_of_and_F000 h
    simp only [decodeWord, hHi]
    rfl
  case seReg | ldReg | orReg | andReg | xorReg | addReg | sub | shr | subn | shl | sneReg =>
    intro h
    obtain ⟨hHi, hN⟩ := fields_of_and_F00F h
    simp only [decodeWord, decodeAlu, hHi, hN]
    rfl
  case skp | sknp | ldVxDT | ldVxK | ldDTVx | ldSTVx | addI | ldF | ldB | ldMemVx | ldVxMem =>
    intro h
    obtain ⟨hHi, hKK⟩ := fields_of_and_F0FF h
    simp only [decodeWord, decodeMisc, hHi, hKK]
    rfl

/-! ### The unknown words (R77) -/

/-- The low nibbles that select nothing under the high nibble 8. -/
theorem decodeAlu_error_iff (w : Word) :
    decodeAlu w = .error (.unknownOpcode w) ↔ (fieldN w).toNat ∈ [0x8, 0x9, 0xA, 0xB, 0xC, 0xD, 0xF] := by
  have hlt : (fieldN w).toNat < 16 := (fieldN w).isLt
  interval_cases hN : (fieldN w).toNat <;> simp [decodeAlu, hN]

/-- The low bytes that select something under the high nibble F. -/
theorem decodeMisc_error_iff (w : Word) :
    decodeMisc w = .error (.unknownOpcode w) ↔
      (fieldKK w).toNat ∉ [0x07, 0x0A, 0x15, 0x18, 0x1E, 0x29, 0x33, 0x55, 0x65] := by
  unfold decodeMisc
  split <;> simp_all

/-- The UNKNOWN class in terms of the fields the decoder dispatches on. -/
theorem decodeWord_error_iff (w : Word) :
    decodeWord w = .error (.unknownOpcode w) ↔
      ((fieldHi w).toNat = 0x5 ∧ fieldN w ≠ 0#4) ∨
      ((fieldHi w).toNat = 0x8 ∧ (fieldN w).toNat ∈ [0x8, 0x9, 0xA, 0xB, 0xC, 0xD, 0xF]) ∨
      ((fieldHi w).toNat = 0x9 ∧ fieldN w ≠ 0#4) ∨
      ((fieldHi w).toNat = 0xE ∧ (fieldKK w).toNat ∉ [0x9E, 0xA1]) ∨
      ((fieldHi w).toNat = 0xF ∧ (fieldKK w).toNat ∉ [0x07, 0x0A, 0x15, 0x18, 0x1E, 0x29, 0x33, 0x55, 0x65]) := by
  have hlt : (fieldHi w).toNat < 16 := (fieldHi w).isLt
  unfold decodeWord
  split
  case h_1 hHi => split_ifs <;> simp [hHi]
  case h_6 hHi | h_10 hHi => split_ifs with hN <;> simp [hHi, hN]
  case h_9 hHi => simpa [hHi] using decodeAlu_error_iff w
  case h_15 hHi => split_ifs with hSkp hSknp <;> simp_all [← BitVec.toNat_inj]
  case h_16 hHi => simpa [hHi] using decodeMisc_error_iff w
  case h_17 => interval_cases (fieldHi w).toNat <;> contradiction
  all_goals
    rename_i hHi
    simp [hHi]

/-- Settles O4: the masks of the five groups read off the same fields the decoder dispatches on. -/
theorem unknownWordsAreTheListedOnes : Obligations.UnknownWordsAreTheListedOnes := by
  intro w
  have hN : w &&& 0x000F#16 = 0#16 ↔ fieldN w = 0#4 := by
    rw [← BitVec.toNat_inj, toNat_and_000F, ← BitVec.toNat_inj]
    rfl
  rw [decodeWord_error_iff, ← and_F000_eq_iff w (k := 0x5) (by decide), ← and_F000_eq_iff w (k := 0x8) (by decide),
    ← and_F000_eq_iff w (k := 0x9) (by decide), ← and_F000_eq_iff w (k := 0xE) (by decide),
    ← and_F000_eq_iff w (k := 0xF) (by decide), toNat_and_000F, toNat_and_00FF, ne_eq, ne_eq, hN]

/-- Settles O5: the decoder computes on each of the eleven words. -/
theorem sampleWordsDecode : Obligations.SampleWordsDecode := by
  unfold Obligations.SampleWordsDecode
  decide

end Sys2Proof
end

section
/-! What the remaining instructions do, through the state's operations: one rule per instruction, and one per outcome for those
that can raise. The families' proofs below cite these. -/

namespace Sys2Proof.Machine

/-- An instruction has one outcome. -/
theorem exec_unique {i : Instr} {s t u : State} (ht : exec i s = .next t) (hu : exec i s = .next u) : t = u :=
  Host.Outcome.next.inj (ht.symm.trans hu)

variable (s : State)

/-! ### Control flow and SYS -/

theorem exec_sys (nnn : Literal) : exec (.sys nnn) s = .next s.advance := rfl

theorem exec_jpV0 (nnn : Literal) : exec (.jpV0 nnn) s = .next (s.advance.jump (s.offsetTarget nnn)) := rfl

theorem exec_ret_of_inUse {s : State} (h : s.sp.val ≠ 0) :
    exec .ret s = .next { s with pc := s.stack[s.sp.val - 1], sp := ⟨s.sp.val - 1, by omega⟩ } := by
  have hsome : s.advance.popCall = some (s.stack[s.sp.val - 1], { s.advance with sp := ⟨s.sp.val - 1, by omega⟩ }) :=
    dif_neg h
  simp only [exec, execRet, hsome]
  rfl

theorem exec_ret_of_empty {s : State} (h : s.sp.val = 0) :
    exec .ret s = .next (s.advance.raise .stackUnderflow s.pc (some (encode .ret))) := by
  have hnone : s.advance.popCall = none := State.popCall_eq_none.mpr h
  simp only [exec, execRet, hnone]

theorem exec_call_of_room {nnn : Literal} {s : State} (h : s.sp.val < 16) :
    exec (.call nnn) s = .next
      { s with
        pc := literalWord nnn, stack := s.stack.set s.sp.val (s.pc + 2#16), sp := ⟨s.sp.val + 1, by omega⟩ } := by
  have hsome : s.advance.pushCall s.advance.pc = some
      { s.advance with stack := s.stack.set s.sp.val (s.pc + 2#16), sp := ⟨s.sp.val + 1, by omega⟩ } := dif_pos h
  simp only [exec, execCall, hsome]
  rfl

theorem exec_call_of_full {nnn : Literal} {s : State} (h : s.sp.val = 16) :
    exec (.call nnn) s = .next (s.advance.raise .stackOverflow s.pc (some (encode (.call nnn)))) := by
  have hnone : s.advance.pushCall s.advance.pc = none := State.pushCall_eq_none.mpr h
  simp only [exec, execCall, hnone]

/-! ### Logic, arithmetic, shift, random -/

theorem exec_orReg (x y : Nibble) : exec (.orReg x y) s = .next (s.advance.setV x (s.getV x ||| s.getV y)) := rfl

theorem exec_andReg (x y : Nibble) : exec (.andReg x y) s = .next (s.advance.setV x (s.getV x &&& s.getV y)) := rfl

theorem exec_xorReg (x y : Nibble) : exec (.xorReg x y) s = .next (s.advance.setV x (s.getV x ^^^ s.getV y)) := rfl

theorem exec_addReg (x y : Nibble) :
    exec (.addReg x y) s =
      .next (s.advance.writeFlagThenResult x (carryFlag (s.getV x) (s.getV y)) (s.getV x + s.getV y)) := rfl

theorem exec_sub (x y : Nibble) :
    exec (.sub x y) s =
      .next (s.advance.writeFlagThenResult x (greaterFlag (s.getV x) (s.getV y)) (s.getV x - s.getV y)) := rfl

theorem exec_subn (x y : Nibble) :
    exec (.subn x y) s =
      .next (s.advance.writeFlagThenResult x (greaterFlag (s.getV y) (s.getV x)) (s.getV y - s.getV x)) := rfl

theorem exec_shr (x y : Nibble) :
    exec (.shr x y) s = .next (s.advance.writeFlagThenResult x (lowBitFlag (s.getV x)) (s.getV x >>> 1)) := rfl

theorem exec_shl (x y : Nibble) :
    exec (.shl x y) s = .next (s.advance.writeFlagThenResult x (highBitFlag (s.getV x)) (s.getV x <<< 1)) := rfl

theorem exec_rnd (x : Nibble) (kk : Byte) :
    exec (.rnd x kk) s = .next (s.advance.setV x (Config.rand s.draws &&& kk)).tickDraws := rfl

/-! ### Index register and memory -/

theorem exec_addI (x : Nibble) :
    exec (.addI x) s = .next { s.advance with I := s.I + (s.getV x).setWidth 16 } := rfl

theorem exec_ldF (x : Nibble) : exec (.ldF x) s = .next { s.advance with I := glyphAddress (s.getV x) } := rfl

theorem exec_ldB (x : Nibble) :
    exec (.ldB x) s = .next (s.advance.storeAtI (.ldB x) s.pc (bcdDigits (s.getV x))) := rfl

theorem exec_ldMemVx (x : Nibble) :
    exec (.ldMemVx x) s = .next (s.advance.storeAtI (.ldMemVx x) s.pc (s.advance.regs 0 (regCount x))) := rfl

theorem State.readRange_advance (n : Nat) :
    s.advance.readRange s.I.toNat n =
      if n = 0 ∨ s.I.toNat + n ≤ Config.memSize then some (s.bytesAtI n) else none :=
  State.readRange_eq s.advance s.I.toNat n

theorem exec_ldVxMem_of_inBounds {x : Nibble} {s : State} (h : s.I.toNat + x.toNat ≤ 0xFFF) :
    exec (.ldVxMem x) s = .next (s.advance.loadRegs 0 (s.bytesAtI (regCount x))) := by
  have hsome : s.advance.readRange s.I.toNat (regCount x) = some (s.bytesAtI (regCount x)) := by
    rw [State.readRange_advance, if_pos (by simp only [regCount, Config.memSize]; omega)]
  simp only [exec, execLdVxMem, State.dataAddress, State.advance_I, hsome]

theorem exec_ldVxMem_of_outOfBounds {x : Nibble} {s : State} (h : s.I.toNat + x.toNat > 0xFFF) :
    exec (.ldVxMem x) s =
      .next ((s.advance.loadSome (Config.partialDone s.draws) s.I.toNat 0 (regCount x)).tickDraws.raise .addressingError s.pc
        (some (encode (.ldVxMem x)))) := by
  have hnone : s.advance.readRange s.I.toNat (regCount x) = none := by
    rw [State.readRange_advance, if_neg (by simp only [regCount, Config.memSize]; omega)]
  simp only [exec, execLdVxMem, State.dataAddress, State.advance_I, State.advance_draws, hnone]

/-! ### Graphics -/

/-- The framebuffer and the collision flag that drawing `n` rows at the anchor in Vx and Vy leaves (R161). -/
def State.drawn (s : State) (x y n : Nibble) : Framebuffer × Bool :=
  Framebuffer.drawRows (s.getV x).toNat (s.getV y).toNat (s.bytesAtI n.toNat) (s.fb, false)

theorem exec_drw_of_inBounds {x y n : Nibble} {s : State} (h : n.toNat = 0 ∨ s.I.toNat + n.toNat - 1 ≤ 0xFFF) :
    exec (.drw x y n) s =
      .next (State.setV { s.advance with fb := (s.drawn x y n).1 } VF (flagByte (s.drawn x y n).2)) := by
  have hsome : s.advance.readRange s.I.toNat n.toNat = some (s.bytesAtI n.toNat) := by
    rw [State.readRange_advance, if_pos (by simp only [Config.memSize]; omega)]
  simp only [exec, execDrw, State.dataAddress, State.advance_I, hsome]
  rfl

theorem exec_drw_of_outOfBounds {x y n : Nibble} {s : State} (hn : 1 ≤ n.toNat) (h : s.I.toNat + n.toNat - 1 > 0xFFF) :
    exec (.drw x y n) s = .next (s.advance.raise .addressingError s.pc (some (encode (.drw x y n)))) := by
  have hnone : s.advance.readRange s.I.toNat n.toNat = none := by
    rw [State.readRange_advance, if_neg (by simp only [Config.memSize]; omega)]
  simp only [exec, execDrw, State.dataAddress, State.advance_I, hnone]

/-! ### Keypad and timers -/

theorem exec_skp (x : Nibble) :
    exec (.skp x) s = .next (s.advance.skipIf (s.keyDown (keySelect (s.getV x)))) := rfl

theorem exec_sknp (x : Nibble) :
    exec (.sknp x) s = .next (s.advance.skipIf (!s.keyDown (keySelect (s.getV x)))) := rfl

theorem exec_ldVxDT (x : Nibble) : exec (.ldVxDT x) s = .next (s.advance.setV x s.DT) := rfl

theorem exec_ldVxK (x : Nibble) :
    exec (.ldVxK x) s = .next { s.advance with waitReg := x, status := .waitingForKey } := rfl

theorem exec_ldDTVx (x : Nibble) : exec (.ldDTVx x) s = .next { s.advance with DT := s.getV x } := rfl

theorem exec_ldSTVx (x : Nibble) : exec (.ldSTVx x) s = .next { s.advance with ST := s.getV x } := rfl

end Sys2Proof.Machine
end

section
/-! Proofs of the step statements (60_exceptions.md) that hold for every instruction alike. -/

namespace Sys2Proof.Machine

/-! ### The step in each state of the engine (R200 to R202) -/

theorem step_of_halted {s : State} (h : s.status = .halted) : step s = .next s := by
  simp only [step, h, State.haltedStep]

theorem step_of_waiting {s : State} (h : s.status = .waitingForKey) : step s = .next s.pollKeypad := by
  simp only [step, h]

theorem step_of_fetch_none {s : State} (hrun : s.status = .running) (hfetch : s.fetch = none) :
    step s = .next s.fetchError := by
  simp only [step, hrun, hfetch]

theorem step_of_decode_ok {s : State} {w : Word} {i : Instr} (hrun : s.status = .running) (hfetch : s.fetch = some w)
    (hdec : decodeWord w = .ok i) : step s = exec i s := by
  simp only [step, hrun, hfetch, hdec]

/-- Every state answers a next state: each branch of the step is one. -/
theorem step_next (s : State) : ∃ t, step s = .next t := by
  match hs : s.status with
  | .halted => exact ⟨_, step_of_halted hs⟩
  | .waitingForKey => exact ⟨_, step_of_waiting hs⟩
  | .running =>
    match hf : s.fetch with
    | none => exact ⟨_, step_of_fetch_none hs hf⟩
    | some w =>
      match hd : decodeWord w with
      | .ok i => rw [step_of_decode_ok hs hf hd]; exact exec_next i s
      | .error r => exact ⟨_, step_of_decode_error hs hf hd⟩

/-! ### What a step returns (R200, R204) -/

/-- A step that leaves the engine Halted with a record returns the record. -/
theorem stepReply_of_fault {s t : State} {f : FatalError} (hstep : step s = .next t) (hhalt : t.status = .halted)
    (hfault : t.fault = some f) : stepReply s = .fatal f := by
  simp only [stepReply, hstep, hhalt, hfault]

/-- A step that does not leave the engine Halted, from a state with no unknown word to report, returns `Ok`. -/
theorem stepReply_of_not_halted {s t : State} (hstep : step s = .next t) (hhalt : t.status ≠ .halted)
    (hadv : s.advisory = none) : stepReply s = .ok := by
  simp only [stepReply, hstep, hadv]
  split <;> simp_all

theorem State.advisory_of_decode_ok {s : State} {w : Word} {i : Instr} (hrun : s.status = .running)
    (hfetch : s.fetch = some w) (hdec : decodeWord w = .ok i) : s.advisory = none := by
  simp only [State.advisory, hrun, hfetch, hdec]

/-! ### The statements -/

/-- Settles O12: by the engine's state, the fetch and the decoding. -/
theorem stepAlwaysAnswersNextState : Obligations.StepAlwaysAnswersNextState := step_next

/-- Settles O6: the two bytes read one by one are the word fetched, high byte first. -/
theorem stepRunsDecodedInstruction : Obligations.StepRunsDecodedInstruction := by
  intro s hi lo i hrun hhi hlo hdec
  have hfetch : s.fetch = some (wordOfBytes hi lo) := by
    simp only [State.fetch, State.memRead2, hhi, hlo]
  have hword : decodeWord (wordOfBytes hi lo) = .ok i := by
    rw [decodeBytes] at hdec
    cases h : decodeWord (wordOfBytes hi lo) with
    | ok j => rw [h] at hdec; cases hdec; rfl
    | error r => rw [h] at hdec; cases hdec
  exact step_of_decode_ok hrun hfetch hword

/-- Settles O8: no word is fetched there, and the error taken is what the step returns. -/
theorem fetchErrorHalts : Obligations.FetchErrorHalts := by
  intro s hrun hpc
  have hstep : step s = .next s.fetchError := step_of_fetch_none hrun (s.fetch_none.mpr hpc)
  exact ⟨hstep, stepReply_of_fault hstep rfl rfl⟩

/-- Settles O9: the state after is the state before, whose record is returned. -/
theorem haltedStepChangesNothing : Obligations.HaltedStepChangesNothing := fun _ _ hhalt hfault =>
  ⟨step_of_halted hhalt, stepReply_of_fault (step_of_halted hhalt) hhalt hfault⟩

/-- Settles O13: the word at the pc decodes to the jump, whose target is the pc. -/
theorem selfJumpLeavesStateUnchanged : Obligations.SelfJumpLeavesStateUnchanged := by
  intro s nnn hrun hpc hfetch
  have hdec : decodeWord (encode (.jp nnn)) = .ok (.jp nnn) := decodeWord_encode rfl
  have hstep : step s = .next s := by
    have target : s.advance.jump (literalWord nnn) = s := by
      rw [literalWord, ← hpc]
      rfl
    rw [step_of_decode_ok hrun hfetch hdec, exec_jp, target]
  have hrunning : s.status ≠ .halted := by simp [hrun]
  exact ⟨hstep, stepReply_of_not_halted hstep hrunning (State.advisory_of_decode_ok hrun hfetch hdec)⟩

/-- Settles O10: the two outcomes of the poll, by whether `KEY_PRIORITY` answers a key. -/
theorem waitingStepPollsKeypad : Obligations.WaitingStepPollsKeypad := by
  intro s hwait
  rcases s.pollKeypad_cases with ⟨hnone, hpoll⟩ | ⟨k, hsome, hpressed, hpoll⟩
  case inl =>
    refine ⟨fun _ => by rw [step_of_waiting hwait, hpoll], fun ⟨k, hk⟩ => ?_⟩
    rw [(keyPriority_none s.key).mp hnone k] at hk
    cases hk
  case inr =>
    refine ⟨fun hall => ?_, fun _ => ?_⟩
    · rw [hall k] at hpressed
      cases hpressed
    · refine ⟨k, s.pollKeypad, hpressed, hsome, step_of_waiting hwait, by rw [hpoll]; rfl, fun r => ?_⟩
      rw [hpoll]
      exact State.getV_setV s s.waitReg r _

end Sys2Proof.Machine
end

section
/-! Proofs of the SYS, call-stack and offset-jump statements (40_control_flow.md, 45_sys_and_unknown.md). -/

namespace Sys2Proof.Machine

/-! ### The two completions, entry by entry (R25) -/

/-- CALL with room on the stack: the entry at `sp` is the address after the CALL, everything else is as before (R102). -/
theorem exec_call_spec {nnn : Literal} {s : State} (h : s.sp.val < 16) :
    ∃ t, exec (.call nnn) s = .next t ∧ t = { s with pc := nnn.setWidth 16, stack := t.stack, sp := t.sp } ∧
      t.sp.val = s.sp.val + 1 ∧ ∀ k : Fin 16, t.stack[k] = if k.val = s.sp.val then s.pc + 2#16 else s.stack[k] := by
  refine ⟨_, exec_call_of_room h, rfl, rfl, fun k => ?_⟩
  simp only [Fin.getElem_fin, Vector.getElem_set, eq_comm]

/-- RET on a stack in use: the newest entry is the pc, everything else is as before (R100). -/
theorem exec_ret_spec {s : State} (h : s.sp.val ≠ 0) :
    ∃ t, exec .ret s = .next t ∧ t = { s with pc := t.pc, sp := t.sp } ∧ t.sp.val + 1 = s.sp.val ∧
      ∀ k : Fin 16, k.val + 1 = s.sp.val → t.pc = s.stack[k] := by
  refine ⟨_, exec_ret_of_inUse h, rfl, Nat.succ_pred_eq_of_ne_zero h, fun k hk => ?_⟩
  simp only [← hk, Nat.add_sub_cancel, Fin.getElem_fin]

/-! ### The statements -/

/-- Settles O20: the fetch advance is the whole effect. -/
theorem sysIsNoOp : Obligations.SysIsNoOp := fun nnn s => exec_sys s nnn

/-- Settles O22: a push succeeds exactly below 16 entries. -/
theorem callPushesOrOverflows : Obligations.CallPushesOrOverflows := fun _ _ =>
  ⟨exec_call_spec, exec_call_of_full⟩

/-- Settles O23: a pop succeeds exactly on a stack in use. -/
theorem returnPopsOrUnderflows : Obligations.ReturnPopsOrUnderflows := fun _ =>
  ⟨exec_ret_spec, exec_ret_of_empty⟩

/-- Settles O24: the newest entry after the CALL is the one it pushed, so the RET takes it as the pc. -/
theorem callReturnRoundTrip : Obligations.CallReturnRoundTrip := by
  intro nnn s h
  obtain ⟨t, hcall, ht, htsp, htstack⟩ := exec_call_spec (nnn := nnn) h
  obtain ⟨u, hret, hu, husp, hupc⟩ := exec_ret_spec (s := t) (by omega)
  have hpc : u.pc = s.pc + 2#16 := by
    rw [hupc ⟨s.sp.val, h⟩ htsp.symm, htstack, if_pos rfl]
  have hsp : u.sp = s.sp := Fin.ext (by omega)
  have hstack : u.stack = t.stack := by rw [hu]
  refine ⟨t, u, hcall, hret, ?_, fun k hk => ?_⟩
  · calc u = { t with pc := s.pc + 2#16, stack := u.stack, sp := s.sp } := by rw [← hpc, ← hsp, hstack]; exact hu
      _ = { s with pc := s.pc + 2#16, stack := u.stack } := by rw [ht]
  · rw [hstack, htstack, if_neg hk]

/-- Settles O25: a literal is at most 0xFFF and V0 at most 0xFF, so their sum does not wrap. -/
theorem offsetJumpIsUnreduced : Obligations.OffsetJumpIsUnreduced := by
  intro nnn s
  refine ⟨_, exec_jpV0 s nnn, rfl, ?_⟩
  have hnnn := nnn.isLt
  have hv := (s.getV 0x0#4).isLt
  rw [State.jump_pc, State.offsetTarget, BitVec.toNat_add, literalWord_toNat, BitVec.toNat_setWidth_of_le (by decide)]
  omega

end Sys2Proof.Machine
end

section
/-! Proofs of the logic, arithmetic, shift and random statements (41_load_arithmetic_logic.md). -/

namespace Sys2Proof.Machine

/-! ### The shape shared by the five flag writers (R13, R21) -/

/-- A flag and then a register written after the fetch advance are the whole effect (R13). -/
theorem WritesFlagAndRegister.of_exec {i : Instr} {s : State} {x : Nibble} {flag v : Byte}
    (h : exec i s = .next (s.advance.writeFlagThenResult x flag v)) : WritesFlagAndRegister i s x flag v :=
  ⟨s.advance.writeFlagThenResult x flag v, h, rfl, fun r => by
    rw [State.getV_writeFlagThenResult, State.getV_advance]; rfl⟩

/-! ### The bytes the instructions leave, as numbers -/

/-- A difference of two bytes is the difference of their values modulo 256 (R128, R129, R133). -/
theorem byte_sub_eq_ofNat_mod (a b : Byte) : a - b = BitVec.ofNat 8 ((256 + a.toNat - b.toNat) % 256) := by
  have hb := b.isLt
  apply BitVec.eq_of_toNat_eq
  rw [BitVec.toNat_sub, BitVec.toNat_ofNat]
  omega

theorem byte_shiftRight_one (a : Byte) : a >>> 1 = BitVec.ofNat 8 (a.toNat / 2) := by
  have ha := a.isLt
  apply BitVec.eq_of_toNat_eq
  rw [BitVec.toNat_ushiftRight, BitVec.toNat_ofNat, Nat.shiftRight_eq_div_pow]
  omega

theorem byte_shiftLeft_one (a : Byte) : a <<< 1 = BitVec.ofNat 8 (2 * a.toNat % 256) := by
  apply BitVec.eq_of_toNat_eq
  rw [BitVec.toNat_shiftLeft, BitVec.toNat_ofNat, Nat.shiftLeft_eq]
  omega

theorem carryFlag_eq (a b : Byte) : carryFlag a b = if a.toNat + b.toNat > 255 then 1#8 else 0#8 := by
  simp only [carryFlag, flagByte, decide_eq_true_eq]

theorem greaterFlag_eq (a b : Byte) : greaterFlag a b = if a.toNat > b.toNat then 1#8 else 0#8 := by
  simp only [greaterFlag, flagByte, decide_eq_true_eq]

/-- A flag made of a bit of a number is that bit as a byte. -/
theorem flagByte_testBit (n k : Nat) : flagByte (n.testBit k) = BitVec.ofNat 8 (n / 2 ^ k % 2) := by
  rw [Nat.testBit_eq_decide_div_mod_eq, flagByte]
  rcases Nat.mod_two_eq_zero_or_one (n / 2 ^ k) with h | h <;> simp [h]

theorem lowBitFlag_eq (a : Byte) : lowBitFlag a = BitVec.ofNat 8 (a.toNat % 2) := by
  have h := flagByte_testBit a.toNat 0
  rwa [pow_zero, Nat.div_one] at h

theorem highBitFlag_eq (a : Byte) : highBitFlag a = BitVec.ofNat 8 (a.toNat / 128) := by
  have ha := a.isLt
  have h := flagByte_testBit a.toNat 7
  rwa [show a.toNat / 2 ^ 7 % 2 = a.toNat / 128 by omega] at h

/-! ### The statements -/

/-- Settles O29: the only write after the fetch advance is the bitwise result, into Vx. -/
theorem logicLeavesFlagAlone : Obligations.LogicLeavesFlagAlone := fun x y s =>
  ⟨.of_exec (exec_orReg s x y), .of_exec (exec_andReg s x y), .of_exec (exec_xorReg s x y)⟩

/-- Settles O30: the flag is the carry out of the sum, written before it. -/
theorem addSetsCarry : Obligations.AddSetsCarry := by
  intro x y s
  rw [← carryFlag_eq, ← byte_add_eq_ofNat_mod]
  exact .of_exec (exec_addReg s x y)

/-- Settles O31: the flag compares the operands, whose difference is written after it. -/
theorem subtractionsSetStrictFlag : Obligations.SubtractionsSetStrictFlag := by
  intro x y s
  rw [← greaterFlag_eq, ← greaterFlag_eq, ← byte_sub_eq_ofNat_mod, ← byte_sub_eq_ofNat_mod]
  exact ⟨.of_exec (exec_sub s x y), .of_exec (exec_subn s x y)⟩

/-- Settles O32: the flag is the bit the shift drops, written before the shifted value. -/
theorem shiftsMoveVxByOne : Obligations.ShiftsMoveVxByOne := by
  intro x y s
  rw [← lowBitFlag_eq, ← highBitFlag_eq, ← byte_shiftRight_one, ← byte_shiftLeft_one]
  exact ⟨.of_exec (exec_shr s x y), .of_exec (exec_shl s x y)⟩

/-- A byte ANDed with a mask has no bit outside it. -/
theorem byte_and_and_not (b m : Byte) : b &&& m &&& ~~~m = 0#8 := by
  rw [BitVec.and_assoc, BitVec.and_not_self]
  exact BitVec.and_zero

/-- Settles O33: the byte written is ANDed with the mask, and the counter of draws goes up by one. -/
theorem randomIsMaskedDraw : Obligations.RandomIsMaskedDraw := by
  intro x kk s
  have hget : ∀ r, (s.advance.setV x (Config.rand s.draws &&& kk)).tickDraws.getV r =
      if r = x then Config.rand s.draws &&& kk else s.getV r := fun r => by
    rw [State.getV_tickDraws, State.getV_setV, State.getV_advance]
  refine ⟨_, exec_rnd s x kk, rfl, hget, ?_⟩
  rw [hget, if_pos rfl, byte_and_and_not]

end Sys2Proof.Machine
end

section
/-! What an instruction can do, said once: the shapes of effect, and for each piece of the state what they leave. The invariants, the
access matrix and the list of VF's writers below are read off it. -/

namespace Sys2Proof.Machine

/-- What instruction `i` can do to the state `s`, one constructor per shape of effect: which pieces of the state may have a new
value, and what is known of it. `exec_effect` says that nothing else happens. -/
inductive Effect (s : State) : Instr → State → Prop
  | registers {i : Instr} (V : Vector Byte 16) (hi : writesV i = true) : Effect s i { s.advance with V := V }
  | random (x : Nibble) (kk : Byte) (V : Vector Byte 16) :
      Effect s (.rnd x kk) { s.advance with V := V, draws := s.draws + 1 }
  | flow {i : Instr} (pc : Word) (hi : pc = s.pc + 2#16 ∨ writesPc i = true)
      (hpc : pc.toNat ≤ 0x10FE ∨ pc = s.pc + 2#16 ∨ pc = s.pc + 4#16) : Effect s i { s with pc := pc }
  | ret (pc : Word) (sp : Fin 17) (hsp : sp.val + 1 = s.sp.val)
      (hpc : ∀ k : Fin 16, k.val + 1 = s.sp.val → pc = s.stack[k]) : Effect s .ret { s with pc := pc, sp := sp }
  | call (nnn : Literal) (stack : Vector Word 16) (sp : Fin 17) (hsp : sp.val = s.sp.val + 1)
      (hstack : ∀ k : Fin 16, stack[k] = if k.val = s.sp.val then s.pc + 2#16 else s.stack[k]) :
      Effect s (.call nnn) { s with pc := nnn.setWidth 16, stack := stack, sp := sp }
  | index {i : Instr} (I : Word) (hi : (∃ nnn, i = .ldI nnn) ∨ (∃ x, i = .addI x) ∨ ∃ x, i = .ldF x) :
      Effect s i { s.advance with I := I }
  | clear : Effect s .cls { s.advance with fb := Framebuffer.blank }
  | draw (x y n : Nibble) (V : Vector Byte 16) (fb : Framebuffer) :
      Effect s (.drw x y n) { s.advance with V := V, fb := fb }
  | wait (x : Nibble) : Effect s (.ldVxK x) { s.advance with waitReg := x, status := .waitingForKey }
  | delayTimer (x : Nibble) (b : Byte) : Effect s (.ldDTVx x) { s.advance with DT := b }
  | soundTimer (x : Nibble) (b : Byte) : Effect s (.ldSTVx x) { s.advance with ST := b }
  | store {i : Instr} (mem : Memory) (hi : (∃ x, i = .ldB x) ∨ ∃ x, i = .ldMemVx x)
      (hmem : s.mem.wf = true → mem.wf = true) : Effect s i { s.advance with mem := mem }
  | storeFault {i : Instr} (mem : Memory) (hi : (∃ x, i = .ldB x) ∨ ∃ x, i = .ldMemVx x)
      (hmem : s.mem.wf = true → mem.wf = true) :
      Effect s i (State.raise { s.advance with mem := mem, draws := s.draws + 1 } .addressingError s.pc (some (encode i)))
  | loadFault (x : Nibble) (V : Vector Byte 16) :
      Effect s (.ldVxMem x)
        (State.raise { s.advance with V := V, draws := s.draws + 1 } .addressingError s.pc (some (encode (.ldVxMem x))))
  | raise {i : Instr} (kind : ErrorKind) : Effect s i (s.advance.raise kind s.pc (some (encode i)))

/-! ### Every instruction has one of these effects -/

variable {s : State}

theorem Effect.skip {i : Instr} (hi : writesPc i = true) (c : Bool) : Effect s i (s.advance.skipIf c) := by
  rw [State.skipIf_advance]
  refine .flow _ (.inr hi) (.inr ?_)
  cases c
  · exact .inl rfl
  · exact .inr rfl

theorem Effect.storeAtI {i : Instr} (hi : (∃ x, i = .ldB x) ∨ ∃ x, i = .ldMemVx x) (bs : List Byte) :
    Effect s i (s.advance.storeAtI i s.pc bs) := by
  rcases s.advance.storeAtI_cases i s.pc bs with ⟨hbounds, h⟩ | ⟨-, h⟩ <;> rw [h]
  · exact .store _ hi fun hs => Memory.wf_pokeAll hs hbounds
  · rw [State.writeSome_frame]
    exact .storeFault _ hi fun hs => State.writeSome_wf _ (s := s.advance) hs _ _ _

theorem Effect.jpV0 (nnn : Literal) : Effect s (.jpV0 nnn) (s.advance.jump (s.offsetTarget nnn)) := by
  refine .flow _ (.inr rfl) (.inl ?_)
  have hnnn := nnn.isLt
  have hv := (s.getV 0x0#4).isLt
  rw [State.offsetTarget, BitVec.toNat_add, literalWord_toNat, BitVec.toNat_setWidth_of_le (by decide)]
  omega

theorem Effect.jp (nnn : Literal) : Effect s (.jp nnn) (s.advance.jump (literalWord nnn)) := by
  refine .flow _ (.inr rfl) (.inl ?_)
  have hnnn := nnn.isLt
  rw [literalWord_toNat]
  omega

theorem exists_effect_ret : ∃ t, exec .ret s = .next t ∧ Effect s .ret t := by
  by_cases h : s.sp.val = 0
  · exact ⟨_, exec_ret_of_empty h, .raise _⟩
  · obtain ⟨t, hexec, hframe, hsp, hpc⟩ := exec_ret_spec h
    exact ⟨t, hexec, hframe ▸ .ret t.pc t.sp hsp hpc⟩

theorem exists_effect_call (nnn : Literal) : ∃ t, exec (.call nnn) s = .next t ∧ Effect s (.call nnn) t := by
  by_cases h : s.sp.val < 16
  · obtain ⟨t, hexec, hframe, hsp, hstack⟩ := exec_call_spec (nnn := nnn) h
    exact ⟨t, hexec, hframe ▸ .call nnn t.stack t.sp hsp hstack⟩
  · exact ⟨_, exec_call_of_full (by omega), .raise _⟩

theorem exists_effect_drw (x y n : Nibble) : ∃ t, exec (.drw x y n) s = .next t ∧ Effect s (.drw x y n) t := by
  by_cases h : n.toNat = 0 ∨ s.I.toNat + n.toNat - 1 ≤ 0xFFF
  · exact ⟨_, exec_drw_of_inBounds h, .draw x y n _ _⟩
  · exact ⟨_, exec_drw_of_outOfBounds (by omega) (by omega), .raise _⟩

theorem exists_effect_ldVxMem (x : Nibble) : ∃ t, exec (.ldVxMem x) s = .next t ∧ Effect s (.ldVxMem x) t := by
  by_cases h : s.I.toNat + x.toNat ≤ 0xFFF
  · refine ⟨_, exec_ldVxMem_of_inBounds h, ?_⟩
    rw [State.loadRegs_frame]
    exact .registers _ rfl
  · refine ⟨_, exec_ldVxMem_of_outOfBounds (by omega), ?_⟩
    rw [State.loadSome_frame]
    exact .loadFault x _

theorem exists_effect (i : Instr) : ∃ t, exec i s = .next t ∧ Effect s i t := by
  cases i
  case ret => exact exists_effect_ret
  case call nnn => exact exists_effect_call nnn
  case drw x y n => exact exists_effect_drw x y n
  case ldVxMem x => exact exists_effect_ldVxMem x
  case sys nnn => exact ⟨_, exec_sys s nnn, .flow _ (.inl rfl) (.inr (.inl rfl))⟩
  case jp nnn => exact ⟨_, exec_jp nnn s, .jp nnn⟩
  case jpV0 nnn => exact ⟨_, exec_jpV0 s nnn, .jpV0 nnn⟩
  case seImm | sneImm | seReg | sneReg | skp | sknp => exact ⟨_, rfl, .skip rfl _⟩
  case cls => exact ⟨_, exec_cls s, .clear⟩
  case rnd x kk => exact ⟨_, exec_rnd s x kk, .random x kk _⟩
  case ldI nnn => exact ⟨_, exec_ldI nnn s, .index _ (.inl ⟨nnn, rfl⟩)⟩
  case addI x => exact ⟨_, exec_addI s x, .index _ (.inr (.inl ⟨x, rfl⟩))⟩
  case ldF x => exact ⟨_, exec_ldF s x, .index _ (.inr (.inr ⟨x, rfl⟩))⟩
  case ldVxK x => exact ⟨_, exec_ldVxK s x, .wait x⟩
  case ldDTVx x => exact ⟨_, exec_ldDTVx s x, .delayTimer x _⟩
  case ldSTVx x => exact ⟨_, exec_ldSTVx s x, .soundTimer x _⟩
  case ldB x => exact ⟨_, exec_ldB s x, .storeAtI (.inl ⟨x, rfl⟩) _⟩
  case ldMemVx x => exact ⟨_, exec_ldMemVx s x, .storeAtI (.inr ⟨x, rfl⟩) _⟩
  case ldImm | addImm | ldReg | orReg | andReg | xorReg | addReg | sub | shr | subn | shl | ldVxDT =>
    exact ⟨_, rfl, .registers _ rfl⟩

/-- What an instruction does is one of the effects. -/
theorem exec_effect {i : Instr} {s t : State} (h : exec i s = .next t) : Effect s i t := by
  obtain ⟨u, hu, heff⟩ := exists_effect (s := s) i
  exact exec_unique hu h ▸ heff

/-! ### What the effects leave -/

variable {i : Instr} {t : State}

/-- Memory stays canonical: only the stores write it, in bounds. -/
theorem Effect.memInv (h : Effect s i t) (hs : s.MemInv) : t.MemInv := by
  cases h with
  | store _ _ hmem => exact hmem hs
  | storeFault _ _ hmem => exact hmem hs
  | _ => exact hs

/-- The record and the status: as before, or a key wait begun, or an error taken, of this instruction at its own address. -/
theorem Effect.fault (h : Effect s i t) :
    (t.fault = s.fault ∧ (t.status = s.status ∨ t.status = .waitingForKey ∧ ∃ x, i = .ldVxK x)) ∨
      ∃ kind, t.status = .halted ∧ t.fault = some { kind := kind, pc := s.pc, opcode := some (encode i) } := by
  cases h with
  | storeFault | loadFault => exact .inr ⟨.addressingError, rfl, rfl⟩
  | raise kind => exact .inr ⟨kind, rfl, rfl⟩
  | wait x => exact .inl ⟨rfl, .inr ⟨rfl, x, rfl⟩⟩
  | _ => exact .inl ⟨rfl, .inl rfl⟩

/-- A fetch that succeeds starts at 0xFFE or below, so the advance and a taken skip do not wrap. -/
theorem toNat_pc_add {pc : Word} (hpc : pc.toNat ≤ 0xFFE) :
    (pc + 2#16).toNat = pc.toNat + 2 ∧ (pc + 4#16).toNat = pc.toNat + 4 := by
  constructor <;> bv_omega

/-- The pc is at most 0x10FE after an instruction fetched at 0xFFE or below, if the return addresses in use are bounded (R23). -/
theorem Effect.pc_le (h : Effect s i t) (hs : s.FlowInv) (hpc : s.pc.toNat ≤ 0xFFE) : t.pc.toNat ≤ 0x10FE := by
  obtain ⟨hadvance, hskip⟩ := toNat_pc_add hpc
  obtain ⟨-, hstack⟩ := hs
  cases h with
  | flow pc _ hbound =>
    show pc.toNat ≤ 0x10FE
    rcases hbound with h | rfl | rfl <;> omega
  | ret pc sp hsp htop =>
    show pc.toNat ≤ 0x10FE
    have hlt := s.sp.isLt
    rw [htop ⟨sp.val, by omega⟩ hsp]
    exact (hstack ⟨sp.val, by omega⟩ (by simp; omega)).trans (by decide)
  | call nnn =>
    show (literalWord nnn).toNat ≤ 0x10FE
    have hnnn := nnn.isLt
    rw [literalWord_toNat]
    omega
  | _ =>
    show (s.pc + 2#16).toNat ≤ 0x10FE
    omega

/-- The return addresses in use are at most 0x1000: the only new one is the address after a CALL (R23). -/
theorem Effect.stack_le (h : Effect s i t) (hs : s.FlowInv) (hpc : s.pc.toNat ≤ 0xFFE) :
    ∀ k : Fin 16, k.val < t.sp.val → t.stack[k].toNat ≤ 0x1000 := by
  obtain ⟨hadvance, -⟩ := toNat_pc_add hpc
  obtain ⟨-, hstack⟩ := hs
  cases h with
  | ret pc sp hsp =>
    intro k (hk : k.val < sp.val)
    exact hstack k (by omega)
  | call nnn stack sp hsp hnew =>
    intro k (hk : k.val < sp.val)
    show stack[k].toNat ≤ 0x1000
    rw [hnew]
    split
    · omega
    · exact hstack k (by omega)
  | _ => exact hstack

end Sys2Proof.Machine
end

section
/-! Proofs of the invariant statements: every step keeps the invariant, so every event and every schedule does (10_state.md R23,
R30, R33, R35). -/

namespace Sys2Proof.Machine

/-! ### Every step -/

/-- The invariant of the fault record asks nothing of a state without one that is not Halted (R33, R35). -/
theorem State.faultInv_of_none {s : State} (hstatus : s.status ≠ .halted) (hfault : s.fault = none) : s.FaultInv := by
  simp [State.FaultInv, hstatus, hfault]

/-- A state Halted by an error of an instruction fetched at 0xFFE or below has a consistent record (R205). -/
theorem State.faultInv_of_word {s : State} {kind : ErrorKind} {pc w : Word} (hstatus : s.status = .halted)
    (hfault : s.fault = some { kind := kind, pc := pc, opcode := some w }) (hpc : pc.toNat ≤ 0xFFE) : s.FaultInv := by
  simp [State.FaultInv, hstatus, hfault]
  omega

/-- A state Halted by a failed fetch has a consistent record (R205, log entry 6). -/
theorem State.faultInv_fetchError {s : State} (hpc : s.pc.toNat > 0xFFE) : s.fetchError.FaultInv := by
  simp [State.FaultInv, State.fetchError]
  omega

/-- A state the invariant calls not Halted has no record. -/
theorem State.FaultInv.fault_eq_none {s : State} (h : s.FaultInv) (hstatus : s.status ≠ .halted) : s.fault = none := by
  obtain ⟨hiff, -⟩ := h
  rwa [ne_eq, hiff, Option.not_isSome_iff_eq_none] at hstatus

/-- An instruction fetched at 0xFFE or below keeps the fault record consistent. -/
theorem Effect.faultInv {i : Instr} {s t : State} (h : Effect s i t) (hs : s.FaultInv) (hrun : s.status = .running)
    (hpc : s.pc.toNat ≤ 0xFFE) : t.FaultInv := by
  rcases h.fault with ⟨hfault, hstatus⟩ | ⟨kind, hstatus, hfault⟩
  · have hnone : s.fault = none := hs.fault_eq_none (by simp [hrun])
    refine State.faultInv_of_none ?_ (hfault.trans hnone)
    rcases hstatus with hstatus | ⟨hstatus, -⟩ <;> simp [hstatus, hrun]
  · exact State.faultInv_of_word hstatus hfault hpc

/-- Settles O15: only the stores write memory, and both of their outcomes keep the form. -/
theorem stepKeepsMemoryForm : Obligations.StepKeepsMemoryForm := by
  intro s t hs hstep
  -- In order: Halted, the poll of a wait, a failed fetch, an instruction, an unknown word.
  rcases step_cases hstep with ⟨-, rfl⟩ | ⟨-, rfl⟩ | ⟨-, -, rfl⟩ | ⟨w, i, -, -, -, hexec⟩ | ⟨w, -, -, -, rfl⟩
  · exact hs
  · rcases s.pollKeypad_cases with ⟨-, h⟩ | ⟨k, -, -, h⟩ <;> rw [h] <;> exact hs
  · exact hs
  · exact (exec_effect hexec).memInv hs
  · exact hs

/-- Settles O16: a word is fetched at 0xFFE or below only, so the advance and a skip stay below the bound; a jump target is at
most 0xFFF, an offset target at most 0x10FE, and a return address comes from the stack. -/
theorem stepKeepsFlowBounds : Obligations.StepKeepsFlowBounds := by
  intro s t hs hstep
  -- In order: Halted, the poll of a wait, a failed fetch, an instruction, an unknown word.
  rcases step_cases hstep with ⟨-, rfl⟩ | ⟨-, rfl⟩ | ⟨-, -, rfl⟩ | ⟨w, i, -, hfetch, -, hexec⟩ | ⟨w, -, hfetch, -, rfl⟩
  · exact hs
  · rcases s.pollKeypad_cases with ⟨-, h⟩ | ⟨k, -, -, h⟩ <;> rw [h] <;> exact hs
  · exact hs
  · have hpc : s.pc.toNat ≤ 0xFFE := State.pc_le_of_fetch hfetch
    exact ⟨(exec_effect hexec).pc_le hs hpc, (exec_effect hexec).stack_le hs hpc⟩
  · have hpc : s.pc.toNat ≤ 0xFFE := State.pc_le_of_fetch hfetch
    obtain ⟨-, hstack⟩ := hs
    refine ⟨?_, hstack⟩
    rw [State.advance_pc, (toNat_pc_add hpc).1]
    omega

/-- Settles O17: an error of an instruction records the word fetched, from 0xFFE or below; a failed fetch, from above, records
none. -/
theorem stepKeepsFaultRecord : Obligations.StepKeepsFaultRecord := by
  intro s t hs hstep
  -- In order: Halted, the poll of a wait, a failed fetch, an instruction, an unknown word.
  rcases step_cases hstep with
    ⟨-, rfl⟩ | ⟨hwait, rfl⟩ | ⟨-, hfetch, rfl⟩ | ⟨w, i, hrun, hfetch, -, hexec⟩ | ⟨w, -, -, -, rfl⟩
  · exact hs
  · rcases s.pollKeypad_cases with ⟨-, h⟩ | ⟨k, -, -, h⟩ <;> rw [h]
    · exact hs
    · exact State.faultInv_of_none (by simp) (hs.fault_eq_none (by simp [hwait]))
  · exact State.faultInv_fetchError (s.fetch_none.mp hfetch)
  · exact (exec_effect hexec).faultInv hs hrun (State.pc_le_of_fetch hfetch)
  · exact hs

theorem step_keeps_inv {s t : State} (hs : s.Inv) (hstep : step s = .next t) : t.Inv := by
  obtain ⟨hmem, hflow, hfault⟩ := hs
  exact ⟨stepKeepsMemoryForm s t hmem hstep, stepKeepsFlowBounds s t hflow hstep, stepKeepsFaultRecord s t hfault hstep⟩

/-! ### Every event and every schedule -/

/-- Settles O14: reset memory lists nothing, the pc is 0x200, the stack is empty and no fault is recorded. -/
theorem resetMeetsInvariant : Obligations.ResetMeetsInvariant := by
  refine ⟨Memory.wf_reset, ⟨by decide, fun k hk => ?_⟩, State.faultInv_of_none (by decide) rfl⟩
  exact absurd hk (Nat.not_lt_zero k.val)

/-- A `Load`: one of at most 0xE00 bytes, which copies them into memory, or one too long (R232). -/
theorem load_cases (bs : List Byte) (s : State) :
    (bs.length ≤ 0xE00 ∧ load bs s = .next { s with mem := Memory.pokeAll s.mem 0x200 bs }) ∨
      (bs.length > 0xE00 ∧ load bs s = .fault .programTooLarge) := by
  by_cases h : bs.length > Config.maxProgram
  · exact .inr ⟨h, if_pos h⟩
  · exact .inl ⟨Nat.le_of_not_lt h, if_neg h⟩

/-- A `Load` that a session gives a meaning: the program is in memory, or the machine is as before (R232). -/
theorem Session.loadEvent_machine {σ τ : Session} {bs : List Byte} {r : Reply} (h : σ.loadEvent bs = .next (τ, r)) :
    (bs.length ≤ 0xE00 ∧ τ.machine = { σ.machine with mem := Memory.pokeAll σ.machine.mem 0x200 bs }) ∨
      τ.machine = σ.machine := by
  unfold Session.loadEvent at h
  split at h
  · rcases load_cases bs σ.machine with ⟨hlen, hload⟩ | ⟨-, hload⟩ <;> rw [hload] at h <;> cases h
    · exact .inl ⟨hlen, rfl⟩
    · exact .inr rfl
  · cases h

/-- A `Step` that a session gives a meaning is the machine's step. -/
theorem Session.stepEvent_machine {σ τ : Session} {r : Reply} (h : σ.stepEvent = .next (τ, r)) :
    step σ.machine = .next τ.machine := by
  unfold Session.stepEvent at h
  split at h
  · cases h
  · obtain ⟨m, hm⟩ := step_next σ.machine
    rw [hm] at h ⊢
    cases h
    rfl

/-- Settles O18: a step keeps the invariant, a program lies inside memory, and the other events write none of its pieces. -/
theorem eventsKeepInvariant : Obligations.EventsKeepInvariant := by
  intro σ τ e r hσ h
  cases e with
  | reset => cases h; exact resetMeetsInvariant
  | load bs =>
    rcases Session.loadEvent_machine h with ⟨hlen, hm⟩ | hm <;> rw [hm]
    · obtain ⟨hmem, hflow, hfault⟩ := hσ
      exact ⟨Memory.wf_pokeAll hmem (.inr (by simp only [Config.memSize]; omega)), hflow, hfault⟩
    · exact hσ
  | step => exact step_keeps_inv hσ (Session.stepEvent_machine h)
  | timerTick | setKey | readDisplay => cases h; exact hσ

/-- A schedule keeps the invariant from any session that meets it. -/
theorem Session.run_keeps_inv {es : List Event} {σ τ : Session} (hσ : σ.machine.Inv) (h : σ.run es = .next τ) :
    τ.machine.Inv := by
  induction es generalizing σ with
  | nil => cases h; exact hσ
  | cons e es ih =>
    rw [Session.run] at h
    split at h
    case h_1 ρ r hevent => exact ih (eventsKeepInvariant σ ρ e r hσ hevent) h
    all_goals cases h

/-- Settles O19: the first Reset meets the invariant, and every event of the schedule keeps it. -/
theorem everyScheduleKeepsInvariant : Obligations.EveryScheduleKeepsInvariant := fun _ _ h =>
  Session.run_keeps_inv (σ := Session.boot) resetMeetsInvariant h

/-- Settles O58: a step in Halted changes nothing, and no other event but Reset writes the status or the record. -/
theorem haltIsLeftOnlyByReset : Obligations.HaltIsLeftOnlyByReset := by
  intro σ τ e r hhalt hreset h
  cases e with
  | reset => exact absurd rfl hreset
  | load bs =>
    refine ⟨?_, fun hload => absurd rfl (hload bs)⟩
    rcases Session.loadEvent_machine h with ⟨-, hm⟩ | hm <;> rw [hm]
  | step =>
    have hsame : τ.machine = σ.machine :=
      Host.Outcome.next.inj ((Session.stepEvent_machine h).symm.trans (step_of_halted hhalt))
    rw [hsame]
    exact ⟨rfl, fun _ => rfl⟩
  | timerTick | setKey | readDisplay => cases h; exact ⟨rfl, fun _ => rfl⟩

end Sys2Proof.Machine
end

section
/-! Proof of the statement on error conditions (60_exceptions.md R203 to R208): a Running step raises exactly as listed. -/

namespace Sys2Proof.Machine

/-! ### What a step owes to the error condition that stands -/

/-- After an instruction of word `w` run from `s`: with an error condition, Halted with the record of that error; with none, not
Halted and the record as it was. -/
def EndsAs (s t : State) (w : Word) : Option ErrorKind → Prop
  | some kind => t.status = .halted ∧ t.fault = some { kind := kind, pc := s.pc, opcode := some w }
  | none => t.status ≠ .halted ∧ t.fault = s.fault

/-- The error condition of one instruction: the part of `State.raises` that stands after the fetch and the decoding (R203). -/
def raisesOn (s : State) : Instr → Option ErrorKind
  | .ret => if s.sp.val = 0 then some .stackUnderflow else none
  | .call _ => if s.sp.val = 16 then some .stackOverflow else none
  | .drw _ _ n => if 1 ≤ n.toNat ∧ s.I.toNat + n.toNat - 1 > 0xFFF then some .addressingError else none
  | .ldB _ => if s.I.toNat + 2 > 0xFFF then some .addressingError else none
  | .ldMemVx x => if s.I.toNat + x.toNat > 0xFFF then some .addressingError else none
  | .ldVxMem x => if s.I.toNat + x.toNat > 0xFFF then some .addressingError else none
  | _ => none

theorem State.raises_of_fetch_none {s : State} (hfetch : s.fetch = none) : s.raises = some .addressingError := by
  simp only [State.raises, hfetch]

theorem State.raises_of_decode_ok {s : State} {w : Word} {i : Instr} (hfetch : s.fetch = some w)
    (hdec : decodeWord w = .ok i) : s.raises = raisesOn s i := by
  simp only [State.raises, hfetch, hdec]
  cases i <;> rfl

theorem State.raises_of_decode_error {s : State} {w : Word} {r : DecodeReject} (hfetch : s.fetch = some w)
    (hdec : decodeWord w = .error r) : s.raises = none := by
  simp only [State.raises, hfetch, hdec]

@[simp] theorem State.skipIf_status (s : State) (c : Bool) : (s.skipIf c).status = s.status := by rw [State.skipIf_eq]

@[simp] theorem State.skipIf_fault (s : State) (c : Bool) : (s.skipIf c).fault = s.fault := by rw [State.skipIf_eq]

/-! ### The instructions that store at `I` -/

/-- A store of `n + 1` bytes at `I` ends by the condition that the last of them is above 0xFFF (R143, R146). -/
theorem State.endsAs_storeAtI {s : State} (hrun : s.status = .running) (i : Instr) {n : Nat} {bs : List Byte}
    (hlen : bs.length = n + 1) :
    EndsAs s (s.advance.storeAtI i s.pc bs) (encode i)
      (if s.I.toNat + n > 0xFFF then some .addressingError else none) := by
  have hne : bs ≠ [] := List.ne_nil_of_length_eq_add_one hlen
  rcases s.advance.storeAtI_cases i s.pc bs with ⟨h, hstore⟩ | ⟨h, hstore⟩ <;> rw [hstore] <;>
    simp only [hne, false_or, hlen, State.advance_I, Config.memSize] at h
  · rw [if_neg (by omega)]
    exact ⟨by simp [hrun], rfl⟩
  · rw [if_pos (by omega)]
    exact ⟨rfl, rfl⟩

/-! ### Every instruction -/

theorem exec_endsAs {s t : State} {i : Instr} (hrun : s.status = .running) (h : exec i s = .next t) :
    EndsAs s t (encode i) (raisesOn s i) := by
  have hhalt : s.status ≠ .halted := by simp [hrun]
  cases i <;> simp only [raisesOn]
  case ret =>
    split_ifs with hsp
    · obtain rfl := exec_unique (exec_ret_of_empty hsp) h
      exact ⟨rfl, rfl⟩
    · obtain ⟨u, hu, hframe, -⟩ := exec_ret_spec hsp
      obtain rfl := exec_unique hu h
      rw [hframe]
      exact ⟨hhalt, rfl⟩
  case call nnn =>
    split_ifs with hsp
    · obtain rfl := exec_unique (exec_call_of_full hsp) h
      exact ⟨rfl, rfl⟩
    · obtain ⟨u, hu, hframe, -⟩ := exec_call_spec (nnn := nnn) (s := s) (by omega)
      obtain rfl := exec_unique hu h
      rw [hframe]
      exact ⟨hhalt, rfl⟩
  case drw x y n =>
    split_ifs with hI
    · obtain rfl := exec_unique (exec_drw_of_outOfBounds hI.1 hI.2) h
      exact ⟨rfl, rfl⟩
    · obtain rfl := exec_unique (exec_drw_of_inBounds (by omega)) h
      exact ⟨hhalt, rfl⟩
  case ldVxMem x =>
    split_ifs with hI
    · obtain rfl := exec_unique (exec_ldVxMem_of_outOfBounds hI) h
      rw [State.loadSome_frame]
      exact ⟨rfl, rfl⟩
    · obtain rfl := exec_unique (exec_ldVxMem_of_inBounds (by omega)) h
      rw [State.loadRegs_frame]
      exact ⟨hhalt, rfl⟩
  case ldB x =>
    obtain rfl := Host.Outcome.next.inj h
    exact State.endsAs_storeAtI hrun (.ldB x) rfl
  case ldMemVx x =>
    obtain rfl := Host.Outcome.next.inj h
    exact State.endsAs_storeAtI hrun (.ldMemVx x) (State.length_regs _ _ _)
  case ldVxK x =>
    obtain rfl := Host.Outcome.next.inj h
    exact ⟨by simp, rfl⟩
  case seImm | sneImm | seReg | sneReg | skp | sknp =>
    obtain rfl := Host.Outcome.next.inj h
    exact ⟨by simp [hrun], by simp⟩
  all_goals
    obtain rfl := Host.Outcome.next.inj h
    exact ⟨hhalt, rfl⟩

/-- Settles O11: by the fetch and the decoding; the word on record is the instruction's encoding, which is the word fetched. -/
theorem stepRaisesExactlyAsListed : Obligations.StepRaisesExactlyAsListed := by
  intro s hrun
  obtain ⟨t, hstep⟩ := step_next s
  refine ⟨t, hstep, ?_⟩
  -- In order: Halted, the poll of a wait, a failed fetch, an instruction, an unknown word.
  rcases step_cases hstep with
    ⟨hhalt, -⟩ | ⟨hwait, -⟩ | ⟨-, hfetch, rfl⟩ | ⟨w, i, -, hfetch, hdec, hexec⟩ | ⟨w, -, hfetch, hdec, rfl⟩
  · simp [hrun] at hhalt
  · simp [hrun] at hwait
  · rw [State.raises_of_fetch_none hfetch, hfetch]
    exact ⟨rfl, rfl, stepReply_of_fault hstep rfl rfl⟩
  · have hends := exec_endsAs hrun hexec
    obtain ⟨-, rfl⟩ := encodeDecodeRoundTrip w i hdec
    rw [State.raises_of_decode_ok hfetch hdec, hfetch]
    cases hraises : raisesOn s i with
    | none => rwa [hraises] at hends
    | some kind =>
      rw [hraises] at hends
      obtain ⟨hhalt, hfault⟩ := hends
      exact ⟨hhalt, hfault, stepReply_of_fault hstep hhalt hfault⟩
  · rw [State.raises_of_decode_error hfetch hdec]
    exact ⟨by simp [hrun], rfl⟩

end Sys2Proof.Machine
end

section
/-! Proofs of the access matrix and of the list of VF's writers (10_state.md R21, R39). -/

namespace Sys2Proof.Machine

/-! ### What each effect may change, one piece of the state at a time -/

section
variable {i : Instr} {s t : State} (h : Effect s i t)
include h

theorem Effect.key_eq : t.key = s.key := by cases h <;> rfl

theorem Effect.of_V_ne : t.V ≠ s.V → writesV i = true := by
  cases h with
  | registers V hi => exact fun _ => hi
  | random | draw | loadFault => exact fun _ => rfl
  | _ => exact fun hne => absurd rfl hne

theorem Effect.status_or_fault :
    t.fault = s.fault ∧ (t.status ≠ s.status → ∃ x, i = .ldVxK x) ∨ t.status = .halted ∧ t.fault.isSome := by
  rcases h.fault with ⟨hfault, hstatus | ⟨-, hwait⟩⟩ | ⟨kind, hstatus, hfault⟩
  · exact .inl ⟨hfault, fun hne => absurd hstatus hne⟩
  · exact .inl ⟨hfault, fun _ => hwait⟩
  · exact .inr ⟨hstatus, by rw [hfault]; rfl⟩

theorem Effect.of_mem_ne : t.mem ≠ s.mem → (∃ x, i = .ldB x) ∨ ∃ x, i = .ldMemVx x := by
  cases h with
  | store _ hi | storeFault _ hi => exact fun _ => hi
  | _ => exact fun hne => absurd rfl hne

theorem Effect.of_fb_ne : t.fb ≠ s.fb → i = .cls ∨ ∃ x y n, i = .drw x y n := by
  cases h with
  | clear => exact fun _ => .inl rfl
  | draw x y n => exact fun _ => .inr ⟨x, y, n, rfl⟩
  | _ => exact fun hne => absurd rfl hne

theorem Effect.of_DT_ne : t.DT ≠ s.DT → ∃ x, i = .ldDTVx x := by
  cases h with
  | delayTimer x => exact fun _ => ⟨x, rfl⟩
  | _ => exact fun hne => absurd rfl hne

theorem Effect.of_ST_ne : t.ST ≠ s.ST → ∃ x, i = .ldSTVx x := by
  cases h with
  | soundTimer x => exact fun _ => ⟨x, rfl⟩
  | _ => exact fun hne => absurd rfl hne

theorem Effect.of_I_ne : t.I ≠ s.I → (∃ nnn, i = .ldI nnn) ∨ (∃ x, i = .addI x) ∨ ∃ x, i = .ldF x := by
  cases h with
  | index _ hi => exact fun _ => hi
  | _ => exact fun hne => absurd rfl hne

theorem Effect.of_pc_ne : t.pc ≠ s.pc + 2#16 → writesPc i = true := by
  cases h with
  | flow pc hi => exact fun hne => hi.resolve_left hne
  | ret | call => exact fun _ => rfl
  | _ => exact fun hne => absurd rfl hne

theorem Effect.of_sp_ne : t.sp ≠ s.sp → i = .ret ∨ ∃ nnn, i = .call nnn := by
  cases h with
  | ret => exact fun _ => .inl rfl
  | call nnn => exact fun _ => .inr ⟨nnn, rfl⟩
  | _ => exact fun hne => absurd rfl hne

theorem Effect.of_stack_ne : t.stack ≠ s.stack → ∃ nnn, i = .call nnn := by
  cases h with
  | call nnn => exact fun _ => ⟨nnn, rfl⟩
  | _ => exact fun hne => absurd rfl hne

theorem Effect.of_waitReg_ne : t.waitReg ≠ s.waitReg → ∃ x, i = .ldVxK x := by
  cases h with
  | wait x => exact fun _ => ⟨x, rfl⟩
  | _ => exact fun hne => absurd rfl hne

theorem Effect.of_draws_ne :
    t.draws ≠ s.draws →
      (∃ x kk, i = .rnd x kk) ∨
        t.status = .halted ∧ ((∃ x, i = .ldB x) ∨ (∃ x, i = .ldMemVx x) ∨ ∃ x, i = .ldVxMem x) := by
  cases h with
  | random x kk => exact fun _ => .inl ⟨x, kk, rfl⟩
  | storeFault _ hi => exact fun _ => .inr ⟨rfl, hi.imp_right .inl⟩
  | loadFault x => exact fun _ => .inr ⟨rfl, .inr (.inr ⟨x, rfl⟩)⟩
  | _ => exact fun hne => absurd rfl hne

end

/-- Settles O53: column by column, by the instruction's effect. -/
theorem accessMatrixHolds : Obligations.AccessMatrixHolds := by
  intro i s t hexec
  have h : Effect s i t := exec_effect hexec
  exact ⟨h.key_eq, h.of_V_ne, h.status_or_fault, h.of_mem_ne, h.of_fb_ne, h.of_DT_ne, h.of_ST_ne, h.of_I_ne, h.of_pc_ne,
    h.of_sp_ne, h.of_stack_ne, h.of_waitReg_ne, h.of_draws_ne⟩

/-! ### VF -/

/-- An instruction that writes one register changes VF only if that register is VF. -/
theorem WritesRegister.eq_VF {i : Instr} {s t : State} {x : Nibble} {v : Byte} (h : WritesRegister i s x v)
    (hexec : exec i s = .next t) (hne : t.getV VF ≠ s.getV VF) : x = VF := by
  obtain ⟨u, hu, -, hget⟩ := h
  obtain rfl := exec_unique hu hexec
  by_contra hx
  exact hne ((hget VF).trans (if_neg (Ne.symm hx)))

theorem exec_rnd_eq_VF {s t : State} {x : Nibble} {kk : Byte} (hexec : exec (.rnd x kk) s = .next t)
    (hne : t.getV VF ≠ s.getV VF) : x = VF := by
  obtain ⟨u, hu, -, hget, -⟩ := randomIsMaskedDraw x kk s
  obtain rfl := exec_unique hu hexec
  by_contra hx
  exact hne ((hget VF).trans (if_neg (Ne.symm hx)))

/-- A range load up to another register than V15, completed or raising, does not reach V15. -/
theorem exec_ldVxMem_eq_VF {s t : State} {x : Nibble} (hexec : exec (.ldVxMem x) s = .next t)
    (hne : t.getV VF ≠ s.getV VF) : x = VF := by
  by_contra hx
  have hVF : VF.toNat = 15 := rfl
  have hlt : x.toNat < 15 := by
    have := x.isLt
    have : x.toNat ≠ 15 := fun h => hx (BitVec.eq_of_toNat_eq h)
    omega
  by_cases hI : s.I.toNat + x.toNat ≤ 0xFFF
  · obtain rfl := exec_unique (exec_ldVxMem_of_inBounds hI) hexec
    refine hne ?_
    have hlen : (s.bytesAtI (regCount x)).length = x.toNat + 1 := by simp [State.bytesAtI, regCount]
    rw [State.getV_loadRegs _ _ _ (by omega), if_neg (by omega), State.getV_advance]
  · obtain rfl := exec_unique (exec_ldVxMem_of_outOfBounds (by omega)) hexec
    refine hne ?_
    rw [State.getV_raise, State.getV_tickDraws, State.getV_loadSome _ _ _ _ _ (by simp only [regCount]; omega),
      if_neg (by simp only [regCount]; omega), State.getV_advance]

/-- Settles O54: an instruction with no W for V leaves VF; the six flag writers are listed; the others write one register, or the
registers up to one, and change VF only if it is VF. -/
theorem flagHasOnlyListedWriters : Obligations.FlagHasOnlyListedWriters := by
  intro i s t hexec (hne : t.getV VF ≠ s.getV VF)
  have hV : writesV i = true := (exec_effect hexec).of_V_ne fun hV => hne (by rw [State.getV, State.getV, hV])
  cases i <;> simp only [writesV, Bool.false_eq_true] at hV
  case addReg | sub | shr | subn | shl | drw => simp
  case rnd =>
    obtain rfl := exec_rnd_eq_VF hexec hne
    simp [VF]
  case ldVxMem =>
    obtain rfl := exec_ldVxMem_eq_VF hexec hne
    simp [VF]
  case ldImm | addImm | ldReg | orReg | andReg | xorReg | ldVxDT =>
    obtain rfl := (WritesRegister.of_exec rfl).eq_VF hexec hne
    simp [VF]

end Sys2Proof.Machine
end

section
/-! Proofs of the noninterference statements (10_state.md R25, R27, R34; 93_implementation_defined.md U9): no step reads ST, the stack
entries at or above `sp`, or, outside WaitingForKey, `wait_reg`. The three are proved as one. -/

namespace Sys2Proof.Machine

/-! ### States that differ in the unread pieces -/

/-- `s` with other values in ST, the stack and `wait_reg`. -/
def State.withUnread (s : State) (b : Byte) (st : Vector Word 16) (r : Nibble) : State :=
  { s with ST := b, stack := st, waitReg := r }

/-- How the other values `b`, `st`, `r` held beside `s` may differ from `b'`, `st'`, `r'` held beside `t`, the state after: each is
equal to the machine's own value afterwards if it was before; the entries in use agree afterwards; and a wait that begins has
its own `wait_reg`. -/
structure UnreadKept (s t : State) (b b' : Byte) (st st' : Vector Word 16) (r r' : Nibble) : Prop where
  timer : b = s.ST → b' = t.ST
  stack : st = s.stack → st' = t.stack
  inUse : ∀ k : Fin 16, k.val < t.sp.val → st'[k] = t.stack[k]
  waitReg : r = s.waitReg → r' = t.waitReg
  newWait : s.status ≠ .waitingForKey → t.status = .waitingForKey → r' = t.waitReg

variable {s t : State} {b : Byte} {st : Vector Word 16} {r : Nibble}

/-- A step that writes none of the unread pieces, and begins no wait, keeps their values. -/
theorem UnreadKept.of_frame (hst : ∀ k : Fin 16, k.val < s.sp.val → st[k] = s.stack[k])
    (hframe : t.ST = s.ST ∧ t.stack = s.stack ∧ t.sp = s.sp ∧ t.waitReg = s.waitReg)
    (hwait : t.status = .waitingForKey → s.status = .waitingForKey) : UnreadKept s t b b st st r r := by
  obtain ⟨hST, hstack, hsp, hreg⟩ := hframe
  exact ⟨fun h => h.trans hST.symm, fun h => h.trans hstack.symm, fun k hk => by rw [hstack]; exact hst k (hsp ▸ hk),
    fun h => h.trans hreg.symm, fun hs ht => absurd (hwait ht) hs⟩

/-- Only LD ST, RET, CALL and LD Vx, K write one of the unread pieces or the stack count. -/
theorem Effect.unreadKept {i : Instr} (h : Effect s i t) (hst : ∀ k : Fin 16, k.val < s.sp.val → st[k] = s.stack[k])
    (hi : i ≠ .ret ∧ (∀ nnn, i ≠ .call nnn) ∧ (∀ x, i ≠ .ldSTVx x) ∧ ∀ x, i ≠ .ldVxK x) :
    UnreadKept s t b b st st r r := by
  obtain ⟨hret, hcall, hST, hwait⟩ := hi
  cases h with
  | ret => exact absurd rfl hret
  | call nnn => exact absurd rfl (hcall nnn)
  | soundTimer x => exact absurd rfl (hST x)
  | wait x => exact absurd rfl (hwait x)
  | storeFault | loadFault | raise => exact .of_frame hst ⟨rfl, rfl, rfl, rfl⟩ (by simp)
  | _ => exact .of_frame hst ⟨rfl, rfl, rfl, rfl⟩ fun hs => hs

/-! ### The operations commute with the change of the unread pieces -/

theorem State.regs_withUnread (k n : Nat) : (s.withUnread b st r).regs k n = s.regs k n := by
  rw [State.regs_eq, State.regs_eq]
  rfl

theorem State.writeSome_withUnread (done : Nat → Bool) (a k : Nat) (bs : List Byte) :
    (s.withUnread b st r).writeSome done a k bs = (s.writeSome done a k bs).withUnread b st r := by
  rw [State.writeSome_frame done (s.withUnread b st r), State.writeSome_mem_congr done (s := s.withUnread b st r) (t := s) rfl,
    State.writeSome_frame done s]
  rfl

theorem State.storeAtI_withUnread (i : Instr) (ipc : Word) (bs : List Byte) :
    (s.withUnread b st r).storeAtI i ipc bs = (s.storeAtI i ipc bs).withUnread b st r := by
  have hcases := (s.withUnread b st r).storeAtI_cases i ipc bs
  rcases s.storeAtI_cases i ipc bs with ⟨hbounds, h⟩ | ⟨hbounds, h⟩
  · rw [h, (hcases.resolve_right fun hnot => hnot.1 hbounds).2]
    rfl
  · rw [h, (hcases.resolve_left fun hin => hbounds hin.1).2, State.writeSome_withUnread]
    rfl

theorem State.loadRegs_withUnread (k : Nat) (bs : List Byte) :
    (s.withUnread b st r).loadRegs k bs = (s.loadRegs k bs).withUnread b st r := by
  rw [State.loadRegs_frame (s.withUnread b st r), State.loadRegs_V_congr (s := s.withUnread b st r) (t := s) rfl,
    State.loadRegs_frame s]
  rfl

theorem State.loadSome_withUnread (done : Nat → Bool) (a k n : Nat) :
    (s.withUnread b st r).loadSome done a k n = (s.loadSome done a k n).withUnread b st r := by
  rw [State.loadSome_frame done (s.withUnread b st r), State.loadSome_V_congr done (s := s.withUnread b st r) (t := s) rfl rfl,
    State.loadSome_frame done s]
  rfl

theorem State.skipIf_withUnread (c : Bool) : (s.withUnread b st r).skipIf c = (s.skipIf c).withUnread b st r := by
  cases c <;> rfl

theorem State.pollKeypad_withUnread :
    (s.withUnread b st s.waitReg).pollKeypad = s.pollKeypad.withUnread b st s.waitReg := by
  have hkey : (s.withUnread b st s.waitReg).key = s.key := rfl
  simp only [State.pollKeypad, hkey]
  cases keyPriority s.key <;> rfl

/-! ### Every instruction -/

theorem exec_ret_withUnread (hst : ∀ k : Fin 16, k.val < s.sp.val → st[k] = s.stack[k]) (h : exec .ret s = .next t) :
    exec .ret (s.withUnread b st r) = .next (t.withUnread b st r) ∧ UnreadKept s t b b st st r r := by
  by_cases hsp : s.sp.val = 0
  · obtain rfl := exec_unique (exec_ret_of_empty hsp) h
    exact ⟨exec_ret_of_empty (s := s.withUnread b st r) hsp, .of_frame hst ⟨rfl, rfl, rfl, rfl⟩ (by simp)⟩
  · obtain rfl := exec_unique (exec_ret_of_inUse hsp) h
    have hlt := s.sp.isLt
    have htop : st[s.sp.val - 1] = s.stack[s.sp.val - 1] := hst ⟨s.sp.val - 1, by omega⟩ (by simp; omega)
    refine ⟨?_, fun hb => hb, fun hs => hs, fun k hk => hst k ?_, fun hr => hr, fun hs ht => absurd ht hs⟩
    · rw [exec_ret_of_inUse (s := s.withUnread b st r) hsp]
      simp only [State.withUnread, htop]
    · exact Nat.lt_of_lt_of_le hk (Nat.sub_le _ _)

theorem exec_call_withUnread {nnn : Literal} (hst : ∀ k : Fin 16, k.val < s.sp.val → st[k] = s.stack[k])
    (h : exec (.call nnn) s = .next t) :
    ∃ st', exec (.call nnn) (s.withUnread b st r) = .next (t.withUnread b st' r) ∧ UnreadKept s t b b st st' r r := by
  by_cases hsp : s.sp.val = 16
  · obtain rfl := exec_unique (exec_call_of_full hsp) h
    exact ⟨st, exec_call_of_full (s := s.withUnread b st r) hsp, .of_frame hst ⟨rfl, rfl, rfl, rfl⟩ (by simp)⟩
  · have hlt : s.sp.val < 16 := by omega
    obtain rfl := exec_unique (exec_call_of_room hlt) h
    refine ⟨st.set s.sp.val (s.pc + 2#16), exec_call_of_room (s := s.withUnread b st r) hlt, fun hb => hb,
      fun hs => by rw [hs], fun k (hk : k.val < s.sp.val + 1) => ?_, fun hr => hr, fun hs ht => absurd ht hs⟩
    simp only [Fin.getElem_fin, Vector.getElem_set]
    split
    · rfl
    · exact hst k (by omega)

theorem exec_drw_withUnread {x y n : Nibble} (h : exec (.drw x y n) s = .next t) :
    exec (.drw x y n) (s.withUnread b st r) = .next (t.withUnread b st r) := by
  by_cases hI : n.toNat = 0 ∨ s.I.toNat + n.toNat - 1 ≤ 0xFFF
  · obtain rfl := exec_unique (exec_drw_of_inBounds hI) h
    exact exec_drw_of_inBounds (s := s.withUnread b st r) hI
  · have hn : 1 ≤ n.toNat := by omega
    have hI : s.I.toNat + n.toNat - 1 > 0xFFF := by omega
    obtain rfl := exec_unique (exec_drw_of_outOfBounds hn hI) h
    exact exec_drw_of_outOfBounds (s := s.withUnread b st r) hn hI

theorem exec_ldVxMem_withUnread {x : Nibble} (h : exec (.ldVxMem x) s = .next t) :
    exec (.ldVxMem x) (s.withUnread b st r) = .next (t.withUnread b st r) := by
  by_cases hI : s.I.toNat + x.toNat ≤ 0xFFF
  · obtain rfl := exec_unique (exec_ldVxMem_of_inBounds hI) h
    rw [exec_ldVxMem_of_inBounds (s := s.withUnread b st r) hI]
    exact congrArg Host.Outcome.next (State.loadRegs_withUnread (s := s.advance) 0 (s.bytesAtI (regCount x)))
  · have hI : s.I.toNat + x.toNat > 0xFFF := by omega
    obtain rfl := exec_unique (exec_ldVxMem_of_outOfBounds hI) h
    rw [exec_ldVxMem_of_outOfBounds (s := s.withUnread b st r) hI]
    show Host.Outcome.next ((State.loadSome _ (s.advance.withUnread b st r) _ _ _).tickDraws.raise _ _ _) = _
    rw [State.loadSome_withUnread]
    rfl

theorem exec_ldMemVx_withUnread (x : Nibble) :
    (s.withUnread b st r).advance.storeAtI (.ldMemVx x) s.pc ((s.withUnread b st r).advance.regs 0 (regCount x)) =
      (s.advance.storeAtI (.ldMemVx x) s.pc (s.advance.regs 0 (regCount x))).withUnread b st r := by
  rw [← State.storeAtI_withUnread, ← State.regs_withUnread (s := s.advance) (b := b) (st := st) (r := r)]
  rfl

theorem exec_withUnread {i : Instr} (hst : ∀ k : Fin 16, k.val < s.sp.val → st[k] = s.stack[k])
    (h : exec i s = .next t) :
    ∃ b' st' r', exec i (s.withUnread b st r) = .next (t.withUnread b' st' r') ∧ UnreadKept s t b b' st st' r r' := by
  cases i
  case ret => exact ⟨b, st, r, exec_ret_withUnread hst h⟩
  case call =>
    obtain ⟨st', hcall⟩ := exec_call_withUnread hst h
    exact ⟨b, st', r, hcall⟩
  case ldSTVx x =>
    obtain rfl := Host.Outcome.next.inj h
    exact ⟨s.getV x, st, r, rfl, fun _ => rfl, fun hs => hs, hst, fun hr => hr, fun hs ht => absurd ht hs⟩
  case ldVxK x =>
    obtain rfl := Host.Outcome.next.inj h
    exact ⟨b, st, x, rfl, fun hb => hb, fun hs => hs, hst, fun _ => rfl, fun _ _ => rfl⟩
  all_goals refine ⟨b, st, r, ?_, (exec_effect h).unreadKept hst (by simp)⟩
  case drw => exact exec_drw_withUnread h
  case ldVxMem => exact exec_ldVxMem_withUnread h
  all_goals obtain rfl := Host.Outcome.next.inj h
  case ldB => exact congrArg Host.Outcome.next (State.storeAtI_withUnread (s := s.advance) _ _ _)
  case ldMemVx x => exact congrArg Host.Outcome.next (exec_ldMemVx_withUnread x)
  case seImm | sneImm | seReg | sneReg | skp | sknp =>
    exact congrArg Host.Outcome.next (State.skipIf_withUnread (s := s.advance) _)
  all_goals rfl

/-! ### Every step -/

theorem step_withUnread (hst : ∀ k : Fin 16, k.val < s.sp.val → st[k] = s.stack[k])
    (hr : s.status = .waitingForKey → r = s.waitReg) (h : step s = .next t) :
    ∃ b' st' r', step (s.withUnread b st r) = .next (t.withUnread b' st' r') ∧ UnreadKept s t b b' st st' r r' := by
  -- In order: Halted, the poll of a wait, a failed fetch, an instruction, an unknown word.
  rcases step_cases h with
    ⟨hhalt, rfl⟩ | ⟨hwait, rfl⟩ | ⟨hrun, hfetch, rfl⟩ | ⟨w, i, hrun, hfetch, hdec, hexec⟩ | ⟨w, hrun, hfetch, hdec, rfl⟩
  · exact ⟨b, st, r, step_of_halted hhalt, .of_frame hst ⟨rfl, rfl, rfl, rfl⟩ fun hs => hs⟩
  · obtain rfl := hr hwait
    refine ⟨b, st, s.waitReg, ?_, .of_frame hst ?_ fun _ => hwait⟩
    · rw [← State.pollKeypad_withUnread]
      exact step_of_waiting hwait
    · rcases s.pollKeypad_cases with ⟨-, hpoll⟩ | ⟨k, -, -, hpoll⟩ <;> rw [hpoll] <;> exact ⟨rfl, rfl, rfl, rfl⟩
  · exact ⟨b, st, r, step_of_fetch_none hrun hfetch, .of_frame hst ⟨rfl, rfl, rfl, rfl⟩ (by simp [State.fetchError])⟩
  · obtain ⟨b', st', r', hexec', hkept⟩ := exec_withUnread (b := b) (r := r) hst hexec
    exact ⟨b', st', r', (step_of_decode_ok (s := s.withUnread b st r) hrun hfetch hdec).trans hexec', hkept⟩
  · exact ⟨b, st, r, step_of_decode_error hrun hfetch hdec, .of_frame hst ⟨rfl, rfl, rfl, rfl⟩ fun hs => hs⟩

/-! ### The statements -/

/-- Settles O55: with the stack and `wait_reg` as they are. -/
theorem soundTimerIsNeverRead : Obligations.SoundTimerIsNeverRead := by
  intro s t b h
  obtain ⟨c, st', r', hstep, hkept⟩ := step_withUnread (b := b) (st := s.stack) (fun _ _ => rfl) (fun _ => rfl) h
  obtain rfl := hkept.stack rfl
  obtain rfl := hkept.waitReg rfl
  exact ⟨c, hstep⟩

/-- Settles O56: with ST and `wait_reg` as they are. -/
theorem unusedStackEntriesAreInvisible : Obligations.UnusedStackEntriesAreInvisible := by
  intro s t st hst h
  obtain ⟨b', st', r', hstep, hkept⟩ := step_withUnread (b := s.ST) hst (fun _ => rfl) h
  obtain rfl := hkept.timer rfl
  obtain rfl := hkept.waitReg rfl
  exact ⟨st', hstep, hkept.inUse⟩

/-- Settles O57: with ST and the stack as they are. -/
theorem waitRegisterIsInvisibleUnlessWaiting : Obligations.WaitRegisterIsInvisibleUnlessWaiting := by
  intro s t r hwait h
  obtain ⟨b', st', r', hstep, hkept⟩ :=
    step_withUnread (b := s.ST) (st := s.stack) (r := r) (fun _ _ => rfl) (fun hw => absurd hw hwait) h
  obtain rfl := hkept.timer rfl
  obtain rfl := hkept.stack rfl
  exact ⟨r', hstep, hkept.newWait hwait⟩

end Sys2Proof.Machine
end

section
/-! Proofs of the index-register and memory statements (42_index_and_memory.md, 20_memory.md). -/

namespace Sys2Proof.Machine

/-! ### The index register -/

/-- Settles O35: a byte widened to 16 bits keeps its value, and the glyph address does not reach 65536. -/
theorem indexArithmetic : Obligations.IndexArithmetic := by
  intro x s
  have hv := (s.getV x).isLt
  refine ⟨⟨_, exec_addI s x, rfl, ?_⟩, ⟨_, exec_ldF s x, rfl, ?_⟩⟩
  · show (s.I + (s.getV x).setWidth 16).toNat = _
    rw [BitVec.toNat_add, BitVec.toNat_setWidth_of_le (by decide)]
  · show (glyphAddress (s.getV x)).toNat = _ ∧ (glyphAddress (s.getV x)).toNat ≤ _
    have hbase := Config.fontBase.isLt
    have hglyph : (glyphAddress (s.getV x)).toNat = Config.fontBase.val + 5 * (s.getV x).toNat := by
      rw [glyphAddress, BitVec.toNat_ofNat]
      omega
    exact ⟨hglyph, by omega⟩

/-! ### Bytes stored -/

/-- Settles O41: a write in bounds is read after write on a canonical memory. -/
theorem storedByteIsReadBack : Obligations.StoredByteIsReadBack := by
  intro s a v hs
  refine ⟨fun ha => ?_, fun ha => ?_⟩
  · have hlt : a < Config.memSize := Nat.lt_succ_of_le ha
    refine ⟨{ s with mem := Memory.poke s.mem a v }, if_pos hlt, rfl, Memory.wf_poke hs hlt v, fun b => ?_⟩
    rw [State.memRead_eq, State.memRead_eq, Memory.peek_poke hs]
    by_cases hb : b = a
    · simp [hb, hlt]
    · simp [hb]
  · exact if_neg (Nat.not_lt_of_ge ha)

/-- A block stored at `I` with its bytes in bounds is the whole effect (R143, R146). -/
theorem StoresAtI.of_exec {i : Instr} {s : State} {n : Nat} {bs : List Byte}
    (h : exec i s = .next (s.advance.storeAtI i s.pc bs)) (hs : s.MemInv) (hlen : bs.length = n + 1)
    (hI : s.I.toNat + n ≤ 0xFFF) : StoresAtI i s bs := by
  have hbounds : bs = [] ∨ s.I.toNat + bs.length ≤ Config.memSize := .inr (by simp only [Config.memSize]; omega)
  rcases s.advance.storeAtI_cases i s.pc bs with ⟨-, hstore⟩ | ⟨hnot, -⟩
  · rw [hstore] at h
    refine ⟨_, h, rfl, fun a => ?_⟩
    simp only [State.memRead_eq, State.advance_mem, State.advance_I, Memory.peek_pokeAll hs hbounds]
    by_cases ha : s.I.toNat ≤ a ∧ a < s.I.toNat + bs.length
    · rw [if_pos ha, if_pos ha, if_pos (by simp only [Config.memSize]; omega)]
    · rw [if_neg ha, if_neg ha]
  · exact absurd hbounds hnot

/-- A block to be stored at `I` with a byte out of bounds: the error is taken, and each in-bounds byte is old or new (R59, R207). -/
theorem StoreFaultsAtI.of_exec {i : Instr} {s : State} {n : Nat} {bs : List Byte}
    (h : exec i s = .next (s.advance.storeAtI i s.pc bs)) (hs : s.MemInv) (hlen : bs.length = n + 1)
    (hI : s.I.toNat + n > 0xFFF) : StoreFaultsAtI i s bs := by
  have hnot : ¬ (bs = [] ∨ s.I.toNat + bs.length ≤ Config.memSize) := by
    have hne : bs ≠ [] := List.ne_nil_of_length_eq_add_one hlen
    simp only [hne, false_or, Config.memSize]
    omega
  rcases s.advance.storeAtI_cases i s.pc bs with ⟨hbounds, -⟩ | ⟨-, hstore⟩
  · exact absurd hbounds hnot
  · rw [hstore, State.writeSome_frame] at h
    refine ⟨_, h, rfl, fun a => ?_⟩
    simp only [State.memRead_eq, State.raise_mem, State.tickDraws_mem, State.advance_mem,
      State.writeSome_peek _ (s := s.advance) hs]
    by_cases hin : a < Config.memSize
    · rw [if_pos hin, if_pos hin]
      split
      case isTrue hnew =>
        obtain ⟨hlow, hhigh, -⟩ := hnew
        exact .inr ⟨hlow, hhigh, Nat.le_of_lt_succ hin, rfl⟩
      case isFalse => exact .inl rfl
    · exact .inl ((if_neg hin).trans (if_neg hin).symm)

/-! ### The registers and digits stored -/

/-- The registers a range store takes, V0 up to and including Vx. -/
theorem State.regs_advance_eq (s : State) (x : Nibble) :
    s.advance.regs 0 (regCount x) = (List.range (x.toNat + 1)).map fun k => s.getV (BitVec.ofNat 4 k) := by
  simp only [State.regs_eq, Nat.zero_add]
  rfl

/-- LD [I], Vx stores V0 up to and including Vx (R146). -/
theorem exec_ldMemVx_eq (x : Nibble) (s : State) :
    exec (.ldMemVx x) s = .next (s.advance.storeAtI (.ldMemVx x) s.pc
      ((List.range (x.toNat + 1)).map fun k => s.getV (BitVec.ofNat 4 k))) := by
  rw [exec_ldMemVx, State.regs_advance_eq]

/-- Settles O36: three digits, stored in bounds. -/
theorem bcdStoresThreeDigits : Obligations.BcdStoresThreeDigits := fun x s hs hI =>
  .of_exec (exec_ldB s x) hs rfl hI

/-- Settles O37: `x + 1` registers, stored in bounds. -/
theorem rangeStoreWritesRegisters : Obligations.RangeStoreWritesRegisters := fun x s hs hI =>
  .of_exec (exec_ldMemVx_eq x s) hs (by simp) hI

/-- Settles O39: either store with its last byte above 0xFFF. -/
theorem outOfRangeStoresFault : Obligations.OutOfRangeStoresFault := fun x s hs =>
  ⟨fun hI => .of_exec (exec_ldB s x) hs rfl hI, fun hI => .of_exec (exec_ldMemVx_eq x s) hs (by simp) hI⟩

/-- Settles O42: the store completes, so the two bytes at the advanced pc are V0 and V1. -/
theorem storeIsSeenByNextFetch : Obligations.StoreIsSeenByNextFetch := by
  intro x s hs hx hpc hI
  obtain ⟨t, hexec, hframe, hread⟩ := rangeStoreWritesRegisters x s hs hI
  refine ⟨t, hexec, ?_⟩
  have htpc : t.pc.toNat = s.I.toNat := by
    have hadvance : t.pc = s.pc + 2#16 := by rw [hframe]
    rw [hadvance, (toNat_pc_add (by omega)).1, hpc]
  have h0 : t.memRead t.pc.toNat = some (s.getV 0x0#4) := by
    rw [htpc, hread, if_pos (by simp)]
    simp
  have h1 : t.memRead (t.pc.toNat + 1) = some (s.getV 0x1#4) := by
    have hlen : 1 < x.toNat + 1 := by omega
    rw [htpc, hread, if_pos (by simp; omega)]
    simp [hlen]
  simp only [State.fetch, State.memRead2, h0, h1]
  rfl

/-! ### Bytes loaded -/

/-- The byte at `I + k`, in bounds, is the `k`-th byte read there. -/
theorem State.memRead_eq_bytesAtI {s : State} {n k : Nat} (hk : k < n) (hI : s.I.toNat + k ≤ 0xFFF) :
    s.memRead (s.I.toNat + k) = some ((s.bytesAtI n).getD k 0) := by
  rw [State.memRead_eq, if_pos (by simp only [Config.memSize]; omega), State.bytesAtI]
  simp [hk]

/-- Settles O38: each register of the range takes its byte, the others are beyond the range. -/
theorem rangeLoadReadsMemory : Obligations.RangeLoadReadsMemory := by
  intro x s hI
  have hx := x.isLt
  have hlen : (s.bytesAtI (regCount x)).length = x.toNat + 1 := by simp [State.bytesAtI, regCount]
  refine ⟨_, exec_ldVxMem_of_inBounds hI, State.loadRegs_frame _ _ _, fun r => ?_⟩
  rw [State.getV_loadRegs _ _ _ (by omega)]
  refine ⟨fun hr => ?_, fun hr => ?_⟩
  · rw [if_pos (by omega), Nat.sub_zero]
    exact State.memRead_eq_bytesAtI (by simp only [regCount]; omega) (by omega)
  · rw [if_neg (by omega), State.getV_advance]

/-- Settles O40: the range load writes registers of the range only, each with its in-bounds byte; the draw writes nothing. -/
theorem outOfRangeReadsFault : Obligations.OutOfRangeReadsFault := by
  intro x y n s
  have hx := x.isLt
  refine ⟨fun hI => ?_, fun hn hI => exec_drw_of_outOfBounds hn hI⟩
  refine ⟨_, exec_ldVxMem_of_outOfBounds hI, ?_, fun r => ?_⟩
  · rw [State.loadSome_frame]
    rfl
  · rw [State.getV_raise, State.getV_tickDraws, State.getV_loadSome _ _ _ _ _ (by simp only [regCount]; omega)]
    split
    case isTrue h =>
      obtain ⟨-, hr, hbound, -⟩ := h
      right
      rw [Nat.sub_zero] at hbound ⊢
      refine ⟨by simp only [regCount] at hr; omega, ?_⟩
      rw [State.memRead_eq, if_pos hbound]
      rfl
    case isFalse => exact .inl rfl

end Sys2Proof.Machine
end

section
/-! Proofs of the sprite statements (43_graphics.md R161, R162). -/

namespace Sys2Proof.Machine

/-! ### What a draw does to the pixels and to VF -/

/-- A flag byte is 1 exactly when its flag is set. -/
theorem flagByte_eq_one_iff (b : Bool) : flagByte b = 1#8 ↔ b = true := by cases b <;> decide

theorem flagByte_eq_one_or_zero (b : Bool) : flagByte b = 1#8 ∨ flagByte b = 0#8 := by
  cases b
  · exact .inr rfl
  · exact .inl rfl

/-- A pixel that is on lies in the grid. -/
theorem Framebuffer.lt_of_pixel {fb : Framebuffer} {px py : Nat} (h : fb.pixel px py = true) : px < 64 ∧ py < 32 := by
  by_contra hout
  rw [Framebuffer.pixel_outside fb hout] at h
  cases h

/-- A sprite bit that is set lies in the sprite's rectangle. -/
theorem spriteBit_bounds {rows : List Byte} {ax ay px py : Nat} (h : spriteBit rows ax ay px py = true) :
    ax ≤ px ∧ px < ax + 8 ∧ ay ≤ py ∧ py < ay + rows.length := by
  simp only [spriteBit, Bool.and_eq_true, decide_eq_true_eq] at h
  obtain ⟨⟨⟨⟨hx, hx'⟩, hy⟩, hy'⟩, -⟩ := h
  exact ⟨hx, hx', hy, hy'⟩

/-- The sprite bit a DRW of Vx, Vy and `n` rows lands on a pixel. -/
def State.sprite (s : State) (x y n : Nibble) (px py : Nat) : Bool :=
  spriteBit (s.bytesAtI n.toNat) (s.getV x).toNat (s.getV y).toNat px py

/-- A draw with its rows in bounds: the pixels XORed inside the grid, VF the collision, and nothing else but the pc (R161). -/
theorem exec_drw_spec {x y n : Nibble} {s t : State} (hI : n.toNat = 0 ∨ s.I.toNat + n.toNat - 1 ≤ 0xFFF)
    (h : exec (.drw x y n) s = .next t) :
    t = { s with pc := s.pc + 2#16, V := t.V, fb := t.fb } ∧
      (∀ px py, t.fb.pixel px py =
        (s.fb.pixel px py ^^ (decide (px < 64) && decide (py < 32) && s.sprite x y n px py))) ∧
      (t.getV VF = 1#8 ∨ t.getV VF = 0#8) ∧
      (t.getV VF = 1#8 ↔ ∃ px py, s.sprite x y n px py = true ∧ s.fb.pixel px py = true) ∧
      ∀ r, r ≠ VF → t.getV r = s.getV r := by
  obtain rfl := exec_unique (exec_drw_of_inBounds hI) h
  refine ⟨rfl, fun px py => ?_, ?_, ?_, fun r hr => ?_⟩
  · exact Framebuffer.pixel_drawRows _ _ _ _ px py
  · rw [State.getV_setV, if_pos rfl]
    exact flagByte_eq_one_or_zero _
  · rw [State.getV_setV, if_pos rfl, flagByte_eq_one_iff, State.drawn, Framebuffer.collision_drawRows]
    simp only [Bool.false_eq_true, false_or]
    rfl
  · rw [State.getV_setV, if_neg hr]
    rfl

/-! ### The statements -/

/-- Settles O44: the pixels and the flag of the whole draw, inside the grid. -/
theorem drawXorsClippedSprite : Obligations.DrawXorsClippedSprite := by
  intro x y n s hI
  obtain ⟨t, h⟩ := exec_next (.drw x y n) s
  obtain ⟨hframe, hpixel, hflag, hcollision, hget⟩ := exec_drw_spec hI h
  refine ⟨t, h, hframe, fun px py hx hy => ?_, hflag, hcollision.trans ⟨?_, ?_⟩, hget⟩
  · rw [← Framebuffer.pixel_eq t.fb hx hy, hpixel, Framebuffer.pixel_eq s.fb hx hy]
    simp only [hx, hy, decide_true, Bool.true_and]
    rfl
  · rintro ⟨px, py, hbit, hon⟩
    obtain ⟨hx, hy⟩ := Framebuffer.lt_of_pixel hon
    exact ⟨px, py, hx, hy, hbit, (Framebuffer.pixel_eq s.fb hx hy).symm.trans hon⟩
  · rintro ⟨px, py, hx, hy, hbit, hon⟩
    exact ⟨px, py, hbit, (Framebuffer.pixel_eq s.fb hx hy).trans hon⟩

/-- Settles O46: a pixel changes only under a sprite bit, and a sprite bit lies in the rectangle. -/
theorem drawStaysInItsRectangle : Obligations.DrawStaysInItsRectangle := by
  intro x y n s t px py h hne
  by_cases hI : n.toNat = 0 ∨ s.I.toNat + n.toNat - 1 ≤ 0xFFF
  · obtain ⟨-, hpixel, -⟩ := exec_drw_spec hI h
    rw [hpixel] at hne
    have hbit : (decide (px < 64) && decide (py < 32) && s.sprite x y n px py) = true := by
      by_contra hoff
      rw [Bool.not_eq_true] at hoff
      exact hne (by rw [hoff, Bool.xor_false])
    simp only [Bool.and_eq_true, decide_eq_true_eq] at hbit
    obtain ⟨⟨hx, hy⟩, hsprite⟩ := hbit
    obtain ⟨hleft, hright, htop, hbottom⟩ := spriteBit_bounds hsprite
    have hlen : (s.bytesAtI n.toNat).length = n.toNat := by simp [State.bytesAtI]
    exact ⟨hleft, by omega, htop, by omega, hx, hy⟩
  · obtain rfl := exec_unique (exec_drw_of_outOfBounds (by omega) (by omega)) h
    exact absurd rfl hne

/-- Settles O45: each pixel is XORed twice with one bit; the second draw's flag is judged on the pixels the first left, where a
sprite bit covers a pixel that is on exactly if it was off before. -/
theorem drawTwiceRestoresFramebuffer : Obligations.DrawTwiceRestoresFramebuffer := by
  intro x y n s t u hI hst hx hy htu
  obtain ⟨hframe, hpixel, -, hflag, -⟩ := exec_drw_spec hI hst
  have hIt : t.I = s.I := by rw [hframe]
  have hmem : t.mem = s.mem := by rw [hframe]
  have hsprite : ∀ px py, t.sprite x y n px py = s.sprite x y n px py := fun px py => by
    simp only [State.sprite, State.bytesAtI, hx, hy, hIt, hmem]
  obtain ⟨-, hpixel', -, hflag', -⟩ := exec_drw_spec (by rwa [hIt]) htu
  simp only [hsprite] at hpixel' hflag'
  have hsecond : u.getV VF = 1#8 ↔ ∃ px py, px < 64 ∧ py < 32 ∧ s.fb.pixel px py = false ∧ s.sprite x y n px py = true := by
    rw [hflag']
    constructor
    · rintro ⟨px, py, hbit, hon⟩
      obtain ⟨hx, hy⟩ := Framebuffer.lt_of_pixel hon
      rw [hpixel] at hon
      exact ⟨px, py, hx, hy, by simpa [hx, hy, hbit] using hon, hbit⟩
    · rintro ⟨px, py, hx, hy, hoff, hbit⟩
      exact ⟨px, py, hbit, by rw [hpixel, hoff]; simp [hx, hy, hbit]⟩
  refine ⟨Framebuffer.ext_pixel fun px py => ?_, hsecond, fun hzero => hsecond.trans ?_⟩
  · rw [hpixel', hpixel, Bool.xor_assoc, Bool.xor_self, Bool.xor_false]
  · have hclear : ∀ px py, s.sprite x y n px py = true → s.fb.pixel px py = false := fun px py hbit => by
      by_contra hon
      have hone := hflag.mpr ⟨px, py, hbit, by simpa using hon⟩
      rw [show t.getV VF = 0#8 from hzero] at hone
      cases hone
    constructor
    · rintro ⟨px, py, hx, hy, -, hbit⟩
      exact ⟨px, py, hx, hy, hbit⟩
    · rintro ⟨px, py, hx, hy, hbit⟩
      exact ⟨px, py, hx, hy, hclear px py hbit, hbit⟩

end Sys2Proof.Machine
end

section
/-! Proofs of the keypad and timer statements (44_keypad_and_timers.md, 60_exceptions.md R215, R218, R220). -/

namespace Sys2Proof.Machine

/-! ### Keys -/

theorem keySelect_toNat (vx : Byte) : (keySelect vx).toNat = vx.toNat % 16 := by
  simp [keySelect, BitVec.extractLsb'_toNat]

theorem State.keyDown_keySelect {s : State} {vx : Byte} {k : Fin 16} (hk : k.val = vx.toNat % 16) :
    s.keyDown (keySelect vx) = s.key[k] := by
  simp only [State.keyDown, keySelect_toNat, ← hk, Fin.getElem_fin]

/-- Settles O47: both are the conditional skip after the fetch advance, on one key's flag. -/
theorem keySkipsTestSelectedKey : Obligations.KeySkipsTestSelectedKey := by
  intro x s k hk
  rw [exec_skp, exec_sknp, State.keyDown_keySelect hk, State.skipIf_advance, State.skipIf_advance]
  simp only [Bool.not_eq_true', and_self]

/-- `KEY_PRIORITY` with one key pressed is that key (R172). -/
theorem keyPriority_single {key : Vector Bool 16} {k : Fin 16} (h : ∀ j : Fin 16, key[j] = true ↔ j = k) :
    keyPriority key = some k := by
  have hk : key[k] = true := (h k).mpr rfl
  cases hprio : keyPriority key with
  | none => rw [(keyPriority_none key).mp hprio k] at hk; cases hk
  | some j => rw [(h j).mp (keyPriority_pressed hprio)]

/-- Settles O48: the poll of a state with one key pressed loads that key. -/
theorem keyWaitLoadsPressedKey : Obligations.KeyWaitLoadsPressedKey := by
  intro x s
  refine ⟨exec_ldVxK s x, fun t k hwait hreg hkey => ?_⟩
  have hpoll : t.pollKeypad = { t.setV x (BitVec.ofNat 8 k.val) with status := .running } := by
    simp only [State.pollKeypad, keyPriority_single hkey, hreg]
  refine ⟨t.pollKeypad, step_of_waiting hwait, by rw [hpoll]; rfl, fun r => ?_⟩
  rw [hpoll]
  exact State.getV_setV t x r _

/-- Settles O51: the event sets one entry of the key flags. -/
theorem setKeyWritesOneFlag : Obligations.SetKeyWritesOneFlag := by
  intro code pressed σ
  refine ⟨_, rfl, rfl, fun k => ?_⟩
  simp only [State.setKey_key, Fin.getElem_fin, Vector.getElem_set, eq_comm]

/-! ### Timers and the display -/

/-- Settles O49: each is one write after the fetch advance. -/
theorem timerCopies : Obligations.TimerCopies := fun x s =>
  ⟨.of_exec (exec_ldVxDT s x), exec_ldDTVx s x, exec_ldSTVx s x⟩

theorem countDown_toNat (b : Byte) : (countDown b).toNat = b.toNat - 1 := by
  have hb := b.isLt
  unfold countDown
  split
  · rw [BitVec.toNat_sub]
    simp
    omega
  · omega

/-- Settles O50: by induction on the number of ticks. -/
theorem ticksCountDownToZero : Obligations.TicksCountDownToZero := by
  intro n s
  induction n with
  | zero => exact ⟨rfl, rfl, rfl⟩
  | succ n ih =>
    obtain ⟨hframe, hDT, hST⟩ := ih
    rw [Function.iterate_succ_apply']
    refine ⟨?_, ?_, ?_⟩
    · rw [hframe]
      rfl
    · rw [State.timerTick_DT, countDown_toNat, hDT, Nat.sub_sub]
    · rw [State.timerTick_ST, countDown_toNat, hST, Nat.sub_sub]

/-- Settles O52: the event returns the framebuffer beside the session it was given. -/
theorem readDisplayChangesNothing : Obligations.ReadDisplayChangesNothing := fun _ => rfl

end Sys2Proof.Machine
end

section
/-! Proofs of the reset and load statements (70_reset_and_hazards.md R230 to R234, R242). -/

namespace Sys2Proof.Machine

/-! ### Memory after Reset (R30, R31) -/

theorem Memory.bootByte_font (k : Fin 80) : Memory.bootByte (Config.fontBase.val + k.val) = Config.fontData[k] := by
  have hbase := Config.fontBase.isLt
  have hk := k.isLt
  rw [Memory.bootByte, if_pos (by simp only [Config.programBase]; omega), dif_pos (by simp only [Config.fontSize]; omega)]
  simp only [Nat.add_sub_cancel_left, Fin.getElem_fin]

theorem Memory.bootByte_zero {a : Nat} (h : a < Config.fontBase.val ∨ Config.fontBase.val + 80 ≤ a) :
    Memory.bootByte a = 0#8 := by
  unfold Memory.bootByte
  split
  · exact dif_neg (by simp only [Config.fontSize]; omega)
  · rfl

/-- Settles O59: every register, pixel and key of the reset state is 0 or off, and memory reads as the boot content. -/
theorem resetGivesBootState : Obligations.ResetGivesBootState := by
  intro σ
  refine ⟨{ machine := σ.machine.resetEvent, phase := .fresh }, rfl, fun r => ?_, rfl, rfl, rfl, rfl, rfl, fun x y hx hy => ?_,
    fun k => ?_, rfl, rfl, fun k => ?_, fun a ha hfont => ?_, fun a ha => ?_⟩
  · exact Vector.getElem_replicate r.isLt
  · show (Vector.replicate 32 (Vector.replicate 64 false))[y][x] = false
    rw [Vector.getElem_replicate, Vector.getElem_replicate]
  · exact Vector.getElem_replicate k.isLt
  · have hbase := Config.fontBase.isLt
    have hk := k.isLt
    rw [State.memRead_eq, if_pos (by simp only [Config.memSize]; omega)]
    exact congrArg some (Memory.bootByte_font k)
  · rw [State.memRead_eq, if_pos (Nat.lt_succ_of_le ha)]
    exact congrArg some (Memory.bootByte_zero hfont)
  · exact if_neg (Nat.not_lt_of_ge ha)

/-! ### The load protocol (R232, R242, D19) -/

/-- A `Load` of at most 0xE00 bytes on a freshly reset machine (R232). -/
theorem Session.loadEvent_of_fits {σ : Session} {bs : List Byte} (hfresh : σ.phase = .fresh) (hlen : bs.length ≤ 0xE00) :
    σ.loadEvent bs =
      .next ({ machine := { σ.machine with mem := Memory.pokeAll σ.machine.mem 0x200 bs }, phase := .loaded }, .ok) := by
  rcases load_cases bs σ.machine with ⟨-, hload⟩ | ⟨htoo, -⟩
  · simp only [Session.loadEvent, hfresh, hload]
  · omega

/-- A longer `Load` there (R232). -/
theorem Session.loadEvent_of_tooLong {σ : Session} {bs : List Byte} (hfresh : σ.phase = .fresh) (hlen : bs.length > 0xE00) :
    σ.loadEvent bs = .next ({ σ with phase := .loadFailed }, .programTooLarge) := by
  rcases load_cases bs σ.machine with ⟨hfits, -⟩ | ⟨-, hload⟩
  · omega
  · simp only [Session.loadEvent, hfresh, hload]

/-- A `Load` in any other phase (D19, U11). -/
theorem Session.loadEvent_of_not_fresh {σ : Session} (bs : List Byte) (h : σ.phase ≠ .fresh) :
    σ.loadEvent bs = .refused .loadNotFresh := by
  unfold Session.loadEvent
  split
  · exact absurd ‹_› h
  · rfl

/-- A `Step` after a failed `Load` (R242 (d)). -/
theorem Session.stepEvent_of_loadFailed {σ : Session} (h : σ.phase = .loadFailed) :
    σ.stepEvent = .refused .stepAfterFailedLoad := by
  simp only [Session.stepEvent, h]

/-- A `Step` in any other phase (R200). -/
theorem Session.stepEvent_of_step {σ : Session} {m : State} (h : σ.phase ≠ .loadFailed) (hstep : step σ.machine = .next m) :
    σ.stepEvent = .next ({ machine := m, phase := .stepped }, stepReply σ.machine) := by
  unfold Session.stepEvent
  split
  · exact absurd ‹_› h
  · rw [hstep]

/-- Settles O60: by the phase and the program's length; a program of at most 0xE00 bytes ends inside memory. -/
theorem loadPlacesProgramOnce : Obligations.LoadPlacesProgramOnce := by
  intro bs σ hmem
  refine ⟨fun hfresh hlen => ?_, Session.loadEvent_of_tooLong, Session.loadEvent_of_not_fresh bs,
    Session.stepEvent_of_loadFailed, fun hphase => ?_, ⟨_, rfl, rfl⟩, fun e τ r hreset hstep hload h => ?_⟩
  · refine ⟨_, Session.loadEvent_of_fits hfresh hlen, rfl, rfl, fun a => ?_⟩
    have hbounds : bs = [] ∨ 0x200 + bs.length ≤ Config.memSize := .inr (by simp only [Config.memSize]; omega)
    simp only [State.memRead_eq, Memory.peek_pokeAll hmem hbounds]
    by_cases ha : 0x200 ≤ a ∧ a < 0x200 + bs.length
    · rw [if_pos ha, if_pos ha, if_pos (by simp only [Config.memSize]; omega)]
    · rw [if_neg ha, if_neg ha]
  · obtain ⟨m, hm⟩ := step_next σ.machine
    exact ⟨_, Session.stepEvent_of_step hphase hm, rfl, hm⟩
  · cases e with
    | reset => exact absurd rfl hreset
    | load cs => exact absurd rfl (hload cs)
    | step => exact absurd rfl hstep
    | timerTick | setKey | readDisplay => cases h; rfl

end Sys2Proof.Machine
end
